-- ==== Sys2Proof/Word.lean ====
section
/-!
DEFINITION. The word type of CA-CORE (00_scope.md R7): every register value, memory cell, address, opcode and operand
is a byte, unsigned, and byte addition and subtraction wrap modulo 256. A general register is named by an index in [0,7].
-/

namespace Sys2Proof

/-- A byte: an unsigned value in [0,255]; bit 7 is the most significant (R7). -/
abbrev Byte := BitVec 8

/-- The index of a general register, R0 to R7 (R21). -/
abbrev Reg := Fin 8

/-- The register operand byte that names `r` (R83): its value is the index. -/
def Reg.byte (r : Reg) : Byte := BitVec.ofNat 8 r.val

end Sys2Proof
end

