-- ==== Sys2Proof/Syntax.lean ====
section
/-!
DEFINITION. The 24 instructions of CA-CORE (30_encoding.md R85), one constructor for each row of spec/opcode_table.json,
with their operand bytes as R81 lays them out: each field is a whole byte. `a` is the byte at pc+1, `b` the byte at pc+2.
-/

namespace Sys2Proof

/-- The 24 mnemonics, in the order of R85's table. -/
inductive Mnemonic where
  | hlt | ret | push | pop | prn | call | jmp | jeq | jne | ldi
  | add | sub | mul | div | mod | inc | dec | cmp | and | not | or | xor | shl | shr
deriving DecidableEq, Repr

/-- The four formats of R81. -/
inductive Format where
  /-- opcode alone -/
  | Z
  /-- opcode, register operand -/
  | R
  /-- opcode, register operand, register operand -/
  | RR
  /-- opcode, register operand, immediate -/
  | RI
deriving DecidableEq, Repr

/-- An instruction with its operand bytes. A register operand is the raw byte of the encoding; that it must be in [0,7]
is `Instr.wellFormed`, and what a byte outside [0,7] does is the meanings' business (R83). -/
inductive Instr where
  | hlt
  | ret
  | push (a : Byte)
  | pop (a : Byte)
  | prn (a : Byte)
  | call (a : Byte)
  | jmp (a : Byte)
  | jeq (a : Byte)
  | jne (a : Byte)
  | ldi (a imm : Byte)
  | add (a b : Byte)
  | sub (a b : Byte)
  | mul (a b : Byte)
  | div (a b : Byte)
  | mod (a b : Byte)
  | inc (a b : Byte)
  | dec (a b : Byte)
  | cmp (a b : Byte)
  | and (a b : Byte)
  /-- `ignored` is NOT's third byte, fetched and ignored (R88); it is kept so that no bit of the encoding is dropped
  (DESIGN CHOICE, log entry 6, safe). -/
  | not (a ignored : Byte)
  | or (a b : Byte)
  | xor (a b : Byte)
  | shl (a b : Byte)
  | shr (a b : Byte)
deriving DecidableEq, Repr

/-- The mnemonic of an instruction. -/
def Instr.mnemonic : Instr → Mnemonic
  | .hlt => .hlt
  | .ret => .ret
  | .push _ => .push
  | .pop _ => .pop
  | .prn _ => .prn
  | .call _ => .call
  | .jmp _ => .jmp
  | .jeq _ => .jeq
  | .jne _ => .jne
  | .ldi _ _ => .ldi
  | .add _ _ => .add
  | .sub _ _ => .sub
  | .mul _ _ => .mul
  | .div _ _ => .div
  | .mod _ _ => .mod
  | .inc _ _ => .inc
  | .dec _ _ => .dec
  | .cmp _ _ => .cmp
  | .and _ _ => .and
  | .not _ _ => .not
  | .or _ _ => .or
  | .xor _ _ => .xor
  | .shl _ _ => .shl
  | .shr _ _ => .shr

end Sys2Proof
end

