-- ==== Sys2Proof/WellFormed.lean ====
section
/-!
DEFINITION. When an instruction's operand bytes are ones the encoding admits (30_encoding.md R81, R83): every register
operand byte is in [0,7]. LDI's immediate (R84) and NOT's third byte (R88) may be any byte.
-/

namespace Sys2Proof

/-- A register operand byte names a register when it is in [0,7]: bits 7:3 are 0 (R81, R83). -/
def regByteOk (b : Byte) : Bool := decide (b.toNat < 8)

/-- Every register operand byte of the instruction names a register. -/
def Instr.wellFormed : Instr → Bool
  | .hlt => true
  | .ret => true
  | .push a => regByteOk a
  | .pop a => regByteOk a
  | .prn a => regByteOk a
  | .call a => regByteOk a
  | .jmp a => regByteOk a
  | .jeq a => regByteOk a
  | .jne a => regByteOk a
  | .ldi a _ => regByteOk a
  | .add a b => regByteOk a && regByteOk b
  | .sub a b => regByteOk a && regByteOk b
  | .mul a b => regByteOk a && regByteOk b
  | .div a b => regByteOk a && regByteOk b
  | .mod a b => regByteOk a && regByteOk b
  | .inc a b => regByteOk a && regByteOk b
  | .dec a b => regByteOk a && regByteOk b
  | .cmp a b => regByteOk a && regByteOk b
  | .and a b => regByteOk a && regByteOk b
  | .not a _ => regByteOk a
  | .or a b => regByteOk a && regByteOk b
  | .xor a b => regByteOk a && regByteOk b
  | .shl a b => regByteOk a && regByteOk b
  | .shr a b => regByteOk a && regByteOk b

end Sys2Proof
end

