-- ==== Sys2Proof/Decode.lean ====
section
/-!
DEFINITION. The instruction decoder (30_encoding.md R80 to R89, 40_sequencer.md R113 to R115), total on any three bytes
and rejecting by name, and after it the encoder, both written from R85's table. Decoding and encoding take the opcode
byte values as the parameter `opc` (OPC, R85); the machine uses the default table, `defaultOpc`.
-/

namespace Sys2Proof

/-- The 24 mnemonics as a list, in the order of R85. -/
def Mnemonic.all : List Mnemonic :=
  [.hlt, .ret, .push, .pop, .prn, .call, .jmp, .jeq, .jne, .ldi, .add, .sub] ++
  [.mul, .div, .mod, .inc, .dec, .cmp, .and, .not, .or, .xor, .shl, .shr]

/-- The format column of R85's table. -/
def Mnemonic.format : Mnemonic → Format
  | .hlt => .Z
  | .ret => .Z
  | .push => .R
  | .pop => .R
  | .prn => .R
  | .call => .R
  | .jmp => .R
  | .jeq => .R
  | .jne => .R
  | .ldi => .RI
  | .add => .RR
  | .sub => .RR
  | .mul => .RR
  | .div => .RR
  | .mod => .RR
  | .inc => .RR
  | .dec => .RR
  | .cmp => .RR
  | .and => .RR
  | .not => .RR
  | .or => .RR
  | .xor => .RR
  | .shl => .RR
  | .shr => .RR

/-- The number of operand bytes of a format (R81). -/
def Format.operandCount : Format → Nat
  | .Z => 0
  | .R => 1
  | .RR => 2
  | .RI => 2

/-- The operand count the opcode table gives a mnemonic (R82). -/
def Mnemonic.operandCount (m : Mnemonic) : Nat := m.format.operandCount

/-- The instruction's length in bytes: the operand count plus one (R82). -/
def Mnemonic.length (m : Mnemonic) : Nat := m.operandCount + 1

/-- The byte at pc+1 is a register operand: every format but `Z` (R81). -/
def Mnemonic.checksA (m : Mnemonic) : Bool := decide (m.format ≠ .Z)

/-- The byte at pc+2 is a register operand: format `RR`, NOT excepted (R121's `is_reg_b`, R88). -/
def Mnemonic.checksB (m : Mnemonic) : Bool := decide (m.format = .RR) && decide (m ≠ .not)

/-- The default value of the parameter OPC (R85's table, spec/opcode_table.json; the spec's decision D1, log entry 1). -/
def defaultOpc : Mnemonic → Byte
  | .hlt => 0b00000001
  | .ret => 0b00010001
  | .push => 0b01000101
  | .pop => 0b01000110
  | .prn => 0b01000111
  | .call => 0b01010000
  | .jmp => 0b01010100
  | .jeq => 0b01010101
  | .jne => 0b01010110
  | .ldi => 0b10000010
  | .add => 0b10100000
  | .sub => 0b10100001
  | .mul => 0b10100010
  | .div => 0b10100011
  | .mod => 0b10100100
  | .inc => 0b10100101
  | .dec => 0b10100110
  | .cmp => 0b10100111
  | .and => 0b10101000
  | .not => 0b10101001
  | .or => 0b10101010
  | .xor => 0b10101011
  | .shl => 0b10101100
  | .shr => 0b10101101

/-- The opcode table's lookup (R113): the mnemonic whose opcode is the whole byte `op`, or absent. -/
def lookupWith (opc : Mnemonic → Byte) (op : Byte) : Option Mnemonic :=
  Mnemonic.all.find? fun m => decide (opc m = op)

/-- The lookup in the default table. -/
def lookup (op : Byte) : Option Mnemonic := lookupWith defaultOpc op

/-- The register a register operand byte names: its value, in [0,7]; the byte is not masked (R83). -/
def regIndex? (b : Byte) : Option Reg :=
  if h : b.toNat < 8 then some ⟨b.toNat, h⟩ else none

/-- The instruction of a mnemonic with operand bytes `a` (at pc+1) and `b` (at pc+2); bytes the format does not have
are not used (R81). -/
def Mnemonic.build : Mnemonic → Byte → Byte → Instr
  | .hlt, _, _ => .hlt
  | .ret, _, _ => .ret
  | .push, a, _ => .push a
  | .pop, a, _ => .pop a
  | .prn, a, _ => .prn a
  | .call, a, _ => .call a
  | .jmp, a, _ => .jmp a
  | .jeq, a, _ => .jeq a
  | .jne, a, _ => .jne a
  | .ldi, a, b => .ldi a b
  | .add, a, b => .add a b
  | .sub, a, b => .sub a b
  | .mul, a, b => .mul a b
  | .div, a, b => .div a b
  | .mod, a, b => .mod a b
  | .inc, a, b => .inc a b
  | .dec, a, b => .dec a b
  | .cmp, a, b => .cmp a b
  | .and, a, b => .and a b
  | .not, a, b => .not a b
  | .or, a, b => .or a b
  | .xor, a, b => .xor a b
  | .shl, a, b => .shl a b
  | .shr, a, b => .shr a b

/-- What the decoder answers: an instruction, or a rejection by name. -/
inductive Decoded where
  /-- A well-formed instruction. -/
  | instr (i : Instr)
  /-- The opcode byte is not in the table (R87, R113). -/
  | unknownOpcode
  /-- A register operand byte is outside [0,7] (R83, R115). -/
  | invalidRegister
deriving DecidableEq, Repr

/-- Decode the bytes at pc, pc+1 and pc+2. The checks stand in the order of R218: the opcode, then `a`, then `b`. -/
def decodeWith (opc : Mnemonic → Byte) (op a b : Byte) : Decoded :=
  match lookupWith opc op with
  | none => .unknownOpcode
  | some m =>
    if m.checksA && (regIndex? a).isNone then .invalidRegister
    else if m.checksB && (regIndex? b).isNone then .invalidRegister
    else .instr (m.build a b)

/-- The decoder of the machine, under the default opcode table. -/
def decode (op a b : Byte) : Decoded := decodeWith defaultOpc op a b

/-- The operand bytes of an instruction, in ascending address order (R54, R81). -/
def Instr.operands : Instr → List Byte
  | .hlt => []
  | .ret => []
  | .push a => [a]
  | .pop a => [a]
  | .prn a => [a]
  | .call a => [a]
  | .jmp a => [a]
  | .jeq a => [a]
  | .jne a => [a]
  | .ldi a imm => [a, imm]
  | .add a b => [a, b]
  | .sub a b => [a, b]
  | .mul a b => [a, b]
  | .div a b => [a, b]
  | .mod a b => [a, b]
  | .inc a b => [a, b]
  | .dec a b => [a, b]
  | .cmp a b => [a, b]
  | .and a b => [a, b]
  | .not a ignored => [a, ignored]
  | .or a b => [a, b]
  | .xor a b => [a, b]
  | .shl a b => [a, b]
  | .shr a b => [a, b]

/-- The bytes of an instruction: its opcode, then its operand bytes (R80). -/
def encodeWith (opc : Mnemonic → Byte) (i : Instr) : List Byte := opc i.mnemonic :: i.operands

/-- The encoder under the default opcode table. -/
def encode (i : Instr) : List Byte := encodeWith defaultOpc i

/-- Byte `k` of a table word of `nbits` bits: bit 0 of the word is the least significant bit of the first byte, and
every bit from `nbits` on is 0. -/
def tableByte (nbits w k : Nat) : Byte := BitVec.ofNat 8 ((w % 2 ^ nbits) / 2 ^ (8 * k))

/-- What the decoder reads from an instruction whose bits are `w`, numbered as spec/opcode_table.json numbers them. -/
def decodeTableWord (nbits w : Nat) : Option Instr :=
  match decode (tableByte nbits w 0) (tableByte nbits w 1) (tableByte nbits w 2) with
  | .instr i => some i
  | .unknownOpcode => none
  | .invalidRegister => none

end Sys2Proof
end

