-- ==== Sys2Proof/Config.lean ====
section
/-!
DEFINITION. The implementation parameters of CA-CORE (00_scope.md R6). They are fixed values: the spec leaves no value
free (R11), so there is no opaque constant here. The one OPEN parameter, the opcode byte values OPC, has its default
table in Sys2Proof/Decode.lean (`defaultOpc`), beside the decoder that reads it.
-/

namespace Sys2Proof.Config

/-- `MEM_SIZE`: the number of bytes of memory (R6, R50). -/
def memSize : Nat := 256

/-- `SP_INDEX`: the register used as stack pointer (R6, R24). -/
def spIndex : Reg := 7

/-- `SP_RESET`: the stack pointer's reset value (R6, R36). -/
def spReset : Byte := 0xF4

/-- `PC_RESET`: the entry point (R6, R242). -/
def pcReset : Byte := 0

/-- `LOAD_BASE`: the address of the image's first byte (R6, R241). -/
def loadBase : Nat := 0

/-- What a byte of memory holds that neither the image nor the run has written (R36, R50: "initialized to 0"). -/
def memFill : Byte := 0

end Sys2Proof.Config
end

