-- ==== Sys2Proof/Machine/State.lean ====
section
/-!
DEFINITION. The state of CA-CORE as plain data: exactly the seven items of 10_state.md R20, and the state after reset
(R36). Beside it the reasons for which the model's step can stop.
-/

namespace Sys2Proof.Machine

/-- The sequencer's state (R30, R111). -/
inductive Status where
  | running
  /-- HLT has executed; terminal. -/
  | halted
  /-- An error was raised; terminal. -/
  | errored
deriving DecidableEq, Repr

/-- The error kinds (60_exceptions.md R210). -/
inductive Cause where
  | unknownOpcode
  /-- Defined and never raised (R215, the spec's D21). -/
  | unsupportedALUOperation
  | divisionByZero
  /-- Defined and never raised (R216, the spec's D21). -/
  | memoryOutOfRange
  | invalidRegister
deriving DecidableEq, Repr

/-- The record `(cause, pc, op)` an error leaves (R31, R219). -/
structure FaultRecord where
  cause : Cause
  /-- the address of the faulting instruction's opcode byte -/
  pc : Byte
  /-- that opcode byte -/
  op : Byte
deriving DecidableEq, Repr

/-- The flags register FL: three booleans with no bit layout (R27, R29). -/
structure Flags where
  E : Bool
  L : Bool
  G : Bool
deriving DecidableEq, Repr

/-- Memory as the list of the (address, byte) pairs that differ from `Config.memFill` (log entry 8). -/
abbrev Memory := List Host.Cell

/-- The architectural state (R20). -/
structure State where
  /-- `x[0]` to `x[7]`; `x[7]` is the stack pointer (R21, R24). -/
  regs : Vector Byte 8
  /-- the program counter (R25) -/
  pc : Byte
  /-- FL (R27) -/
  fl : Flags
  /-- `mem[0]` to `mem[255]` (R35, R50) -/
  mem : Memory
  /-- the sequencer's state (R30) -/
  status : Status
  /-- the fault record, absent unless an error was raised (R31) -/
  fault : Option FaultRecord
  /-- the bytes PRN has emitted, oldest first (R32) -/
  out : List Byte
deriving DecidableEq, Repr

/-- The state right after reset with the empty image (R36, R240, R241 with n = 0): memory lists nothing, so every byte
reads as 0. A program comes in through `State.load` (log entry 4). -/
def State.reset : State where
  regs := (Vector.replicate 8 0).set Config.spIndex.val Config.spReset
  pc := Config.pcReset
  fl := { E := false, L := false, G := false }
  mem := []
  status := .running
  fault := none
  out := []

/-- Why the machine has no next state. The machine's own errors are no `Fault`: each is a next state with status
`Errored` (R219). -/
inductive Fault where
  /-- Raised by `step` when `status` is `Halted`: there is no step (R120). Safe: the machine never goes on either
  (log entry 2). -/
  | runHalted
  /-- Raised by `step` when `status` is `Errored`: there is no step (R120). Safe, as above. -/
  | runErrored
deriving DecidableEq, Repr

/-- Why the model gives an instruction no meaning. No arm of `exec` answers one. -/
inductive Refusal where
  /-- Raised by an arm of `exec` for an instruction without a meaning yet. Safe. -/
  | notModelled (mnemonic : String)
deriving DecidableEq, Repr

/-- What a meaning or a step answers. -/
abbrev Result := Host.Outcome State Fault Refusal

end Sys2Proof.Machine
end

