-- ==== Sys2Proof/Machine/Ops.lean ====
section
/-!
DEFINITION. The named operations over memory and registers that every meaning is written in (00_scope.md R8's
primitives), and the entry of an error, `State.raise`, in one place (60_exceptions.md R219). There is no return from an
error (R220), so there is no operation for one.
-/

namespace Sys2Proof.Machine

/-- The memory controller's `read` (R51): the byte listed for the address, `Config.memFill` where none is. -/
def Memory.read (m : Memory) (a : Nat) : Byte :=
  match m with
  | [] => Config.memFill
  | (k, b) :: rest => if k = a then b else Memory.read rest a

/-- The memory without an entry for the address. -/
def Memory.erase (m : Memory) (a : Nat) : Memory :=
  match m with
  | [] => []
  | (k, b) :: rest => if k = a then Memory.erase rest a else (k, b) :: Memory.erase rest a

/-- The memory with the entry put in before the first greater address. -/
def Memory.insert (m : Memory) (a : Nat) (v : Byte) : Memory :=
  match m with
  | [] => [(a, v)]
  | (k, b) :: rest => if a < k then (a, v) :: (k, b) :: rest else (k, b) :: Memory.insert rest a v

/-- The memory controller's `write` (R51): that one byte and nothing else. Writing what an unlisted address reads as
removes the entry, so the list stays canonical. -/
def Memory.write (m : Memory) (a : Nat) (v : Byte) : Memory :=
  if v = Config.memFill then m.erase a else (m.erase a).insert a v

/-- Every listed address is at least `lo` and inside memory, the addresses rise strictly, and no entry equals what an
unlisted address reads as. -/
def Memory.wfFrom (lo : Nat) (m : Memory) : Bool :=
  match m with
  | [] => true
  | (k, b) :: rest =>
    decide (lo ≤ k) && decide (k < Config.memSize) && decide (b ≠ Config.memFill) && Memory.wfFrom (k + 1) rest

/-- The canonical form of memory (log entry 8). -/
def Memory.wf (m : Memory) : Bool := m.wfFrom 0

/-- The memory that holds the bytes from address `base` up, 0 elsewhere (R241), in canonical form. -/
def Memory.ofBytes (base : Nat) (bytes : List Byte) : Memory :=
  match bytes with
  | [] => []
  | b :: rest => if b = Config.memFill then Memory.ofBytes (base + 1) rest else (base, b) :: Memory.ofBytes (base + 1) rest

/-- `MemRead(addr, 1)` (R8, R51). The address is a byte, so it always lies in [0,255] (R52, R53). -/
def State.memRead (s : State) (a : Byte) : Byte := s.mem.read a.toNat

/-- `MemWrite(addr, 1, v)` (R8, R51). -/
def State.memWrite (s : State) (a v : Byte) : State := { s with mem := s.mem.write a.toNat v }

/-- `x[i]` (R8, R21): no register is hardwired. -/
def State.reg (s : State) (r : Reg) : Byte := s.regs[r]

/-- `x[i] <- v` (R8, R22). -/
def State.setReg (s : State) (r : Reg) (v : Byte) : State := { s with regs := s.regs.set r v }

/-- `sp` is `x[7]` (R8, R24). -/
def State.sp (s : State) : Byte := s.reg Config.spIndex

/-- `sp <- v`: a write of `x[7]` (R8, R24). -/
def State.setSp (s : State) (v : Byte) : State := s.setReg Config.spIndex v

/-- `pc <- t` (R8). -/
def State.setPc (s : State) (t : Byte) : State := { s with pc := t }

/-- `pc <- pc +8 n` (R26, R116): a handler's own fixed width, modulo 256 (the spec's D4). -/
def State.advance (s : State) (n : Nat) : State := s.setPc (s.pc + BitVec.ofNat 8 n)

/-- Write FL, all three flags (R27, R197). -/
def State.setFlags (s : State) (f : Flags) : State := { s with fl := f }

/-- `Out(v)`: append to the output trace (R8, R32, R131). -/
def State.emit (s : State) (v : Byte) : State := { s with out := s.out ++ [v] }

/-- `halt` (R8, R132). -/
def State.halt (s : State) : State := { s with status := .halted }

/-- `raise K(pc, op)` (R8, R219): the entry of an error. `status` and the fault record change and nothing else; `pc`
stays at the faulting instruction, no handler is entered. -/
def State.raise (s : State) (c : Cause) (op : Byte) : State :=
  { s with status := .errored, fault := some { cause := c, pc := s.pc, op := op } }

/-- Fetch and decode (R112 to R115, R121): the opcode byte at `pc`; the operand bytes its table row declares, at
`pc +8 1` and `pc +8 2`, read from memory as it is now (R64, R66); then the operand check. A byte the row does not
declare is not read; the decoder is given 0 in its place and does not use it (log entry 7). -/
def State.decodeNext (s : State) : Decoded :=
  let op := s.memRead s.pc
  match lookup op with
  | none => .unknownOpcode
  | some m =>
    let a := if 1 ≤ m.operandCount then s.memRead (s.pc + 1) else 0
    let b := if m.operandCount = 2 then s.memRead (s.pc + 2) else 0
    decode op a b

/-- Store the three bytes of a table word at `pc`, `pc +8 1` and `pc +8 2`, where `decodeNext` reads them. -/
def State.storeAtPc (s : State) (nbits w : Nat) : State :=
  ((s.memWrite s.pc (tableByte nbits w 0)).memWrite (s.pc + 1) (tableByte nbits w 1)).memWrite (s.pc + 2)
    (tableByte nbits w 2)

end Sys2Proof.Machine
end

