-- ==== Sys2Proof/Machine/Boundary.lean ====
section
/-!
DEFINITION. What passes between the core and the host (70_reset_and_hazards.md R240, R241, R252; 40_sequencer.md R122;
60_exceptions.md R210, R224): the image before the run; the output trace, the status and the fault record after it. The
host does nothing else and does nothing during a run.
-/

namespace Sys2Proof.Machine

/-- `reset(image)` (R240, R241): the reset state with byte `i` of the program at address `i` and 0 at every address from
its length on. A program of more than 256 bytes has no image (U14, the spec's D14). A list of exactly 256 bytes is an
arbitrary image. -/
def State.load (program : List Byte) : Option State :=
  if program.length ≤ Config.memSize then some { State.reset with mem := Memory.ofBytes Config.loadBase program }
  else none

/-- The numeric code of an error kind (R210; the spec's D11). -/
def Cause.code : Cause → Nat
  | .unknownOpcode => 1
  | .unsupportedALUOperation => 2
  | .divisionByZero => 3
  | .memoryOutOfRange => 4
  | .invalidRegister => 5

/-- The numeric code of a status (R224; the spec's D11). -/
def Status.code : Status → Nat
  | .running => 0
  | .halted => 1
  | .errored => 2

/-- The cause code the host sees: 0 while no fault record is present (R210). -/
def faultCode : Option FaultRecord → Nat
  | none => 0
  | some r => r.cause.code

/-- What a run delivers (R122, R224): the output trace, the status code, the cause code, and the address and opcode of
the fault record where there is one. -/
def State.delivers (s : State) : List Byte × Nat × Nat × Option (Byte × Byte) :=
  (s.out, s.status.code, faultCode s.fault, s.fault.map fun r => (r.pc, r.op))

end Sys2Proof.Machine
end

