-- ==== Sys2Proof/Machine/Alu.lean ====
section
/-!
DEFINITION. The value-producing operations of the ALU as pure functions on bytes (44_alu_arith.md R170, R179): the exact
result over the integers, narrowed once by the mathematical modulo 256.
-/

namespace Sys2Proof.Machine

/-- R172. -/
def aluAdd (x y : Byte) : Byte := BitVec.ofNat 8 (x.toNat + y.toNat)

/-- R173: a negative difference wraps upward. -/
def aluSub (x y : Byte) : Byte := BitVec.ofInt 8 ((x.toNat : Int) - (y.toNat : Int))

/-- R174: the low 8 bits of the unsigned product. -/
def aluMul (x y : Byte) : Byte := BitVec.ofNat 8 (x.toNat * y.toNat)

/-- R175: the floor quotient of unsigned values; the divisor 0 never comes here. -/
def aluDiv (x y : Byte) : Byte := BitVec.ofNat 8 (x.toNat / y.toNat)

/-- R176: the remainder of unsigned values; the divisor 0 never comes here. -/
def aluMod (x y : Byte) : Byte := BitVec.ofNat 8 (x.toNat % y.toNat)

/-- R177: the source value plus one. -/
def aluInc (y : Byte) : Byte := BitVec.ofNat 8 (y.toNat + 1)

/-- R178: the source value minus one. -/
def aluDec (y : Byte) : Byte := BitVec.ofInt 8 ((y.toNat : Int) - 1)

/-- R190. -/
def aluAnd (x y : Byte) : Byte := x &&& y

/-- R191. -/
def aluOr (x y : Byte) : Byte := x ||| y

/-- R192. -/
def aluXor (x y : Byte) : Byte := x ^^^ y

/-- R193: every one of the 8 bits inverted. -/
def aluNot (x : Byte) : Byte := BitVec.ofNat 8 (255 - x.toNat)

/-- R194, R196: the count is the whole byte. -/
def aluShl (x c : Byte) : Byte := BitVec.ofNat 8 (x.toNat * 2 ^ c.toNat)

/-- R195, R196: logical; the count is the whole byte. -/
def aluShr (x c : Byte) : Byte := BitVec.ofNat 8 (x.toNat / 2 ^ c.toNat)

end Sys2Proof.Machine
end

