-- ==== Sys2Proof/Machine/Operands.lean ====
section
/-!
DEFINITION. The operand forms (10_state.md R23, 30_encoding.md R81) as shared operations: the register operand check
with its error (40_sequencer.md R115), and the three shapes in which an ALU instruction reads its operands, writes
`x[a]` and goes on at `pc +8 3` (44_alu_arith.md R171).
-/

namespace Sys2Proof.Machine

/-- The check of operand `a` of the instruction `m`: `k` is given the register it names; a byte outside [0,7] raises
`InvalidRegister(pc, op)` with nothing else done (R83, R115, R214). -/
def withReg (m : Mnemonic) (a : Byte) (s : State) (k : Reg → Result) : Result :=
  match regIndex? a with
  | none => .next (s.raise .invalidRegister (defaultOpc m))
  | some ra => k ra

/-- The check of both register operands, `a` first, then `b` (R115, R218). -/
def withRegs (m : Mnemonic) (a b : Byte) (s : State) (k : Reg → Reg → Result) : Result :=
  withReg m a s fun ra => withReg m b s fun rb => k ra rb

/-- `x[a] <- f(x[a], x[b]); pc <- pc +8 3`: both operands are read before the write (R171). -/
def aluBinary (m : Mnemonic) (f : Byte → Byte → Byte) (a b : Byte) (s : State) : Result :=
  withRegs m a b s fun ra rb => .next ((s.setReg ra (f (s.reg ra) (s.reg rb))).advance 3)

/-- As `aluBinary`, with the check of the divisor's value between the operand check and the write: `x[b] = 0` raises
`DivisionByZero(pc, op)` with nothing else done (R175, R176, R212, R218). -/
def aluDivide (m : Mnemonic) (f : Byte → Byte → Byte) (a b : Byte) (s : State) : Result :=
  withRegs m a b s fun ra rb =>
    if s.reg rb = 0 then .next (s.raise .divisionByZero (defaultOpc m))
    else .next ((s.setReg ra (f (s.reg ra) (s.reg rb))).advance 3)

/-- `x[a] <- f(x[b]); pc <- pc +8 3`: the two-register form of INC and DEC, `x[a]` is not read (R89, R177, R178). -/
def aluMove (m : Mnemonic) (f : Byte → Byte) (a b : Byte) (s : State) : Result :=
  withRegs m a b s fun ra rb => .next ((s.setReg ra (f (s.reg rb))).advance 3)

end Sys2Proof.Machine
end

