-- ==== Sys2Proof/Machine/Arith.lean ====
section
/-!
DEFINITION. ADD, SUB, MUL, DIV, MOD, INC and DEC (44_alu_arith.md R172 to R178).
-/

namespace Sys2Proof.Machine

/-- ADD (R172): `x[a] <- (x[a] + x[b]) mod 256`. -/
def execAdd (a b : Byte) (s : State) : Result := aluBinary .add aluAdd a b s

/-- SUB (R173): `x[a] <- (x[a] - x[b]) mod 256`. -/
def execSub (a b : Byte) (s : State) : Result := aluBinary .sub aluSub a b s

/-- MUL (R174): `x[a] <- (x[a] * x[b]) mod 256`. -/
def execMul (a b : Byte) (s : State) : Result := aluBinary .mul aluMul a b s

/-- DIV (R175): `DivisionByZero` if `x[b] = 0`, else `x[a] <- x[a] div x[b]`. -/
def execDiv (a b : Byte) (s : State) : Result := aluDivide .div aluDiv a b s

/-- MOD (R176): `DivisionByZero` if `x[b] = 0`, else `x[a] <- x[a] rem x[b]`. -/
def execMod (a b : Byte) (s : State) : Result := aluDivide .mod aluMod a b s

/-- INC (R177): `x[a] <- (x[b] + 1) mod 256`. -/
def execInc (a b : Byte) (s : State) : Result := aluMove .inc aluInc a b s

/-- DEC (R178): `x[a] <- (x[b] - 1) mod 256`. -/
def execDec (a b : Byte) (s : State) : Result := aluMove .dec aluDec a b s

end Sys2Proof.Machine
end

