-- ==== Sys2Proof/Machine/Control.lean ====
section
/-!
DEFINITION. CALL, RET, JMP, JEQ and JNE (43_control_transfer.md R150 to R155). Every target is an absolute byte address;
there are no delay slots.
-/

namespace Sys2Proof.Machine

/-- CALL (R151): `sp <- sp -8 1; MemWrite(sp, 1, pc +8 2); pc <- x[a]`. CALL R7 goes to the decremented `sp`. -/
def execCall (a : Byte) (s : State) : Result :=
  withReg .call a s fun ra =>
    let s1 := s.setSp (s.sp - 1)
    let s2 := s1.memWrite s1.sp (s1.pc + 2)
    .next (s2.setPc (s2.reg ra))

/-- RET (R152): `t <- MemRead(sp, 1); sp <- sp +8 1; pc <- t`. -/
def execRet (s : State) : Result :=
  let t := s.memRead s.sp
  .next ((s.setSp (s.sp + 1)).setPc t)

/-- JMP (R153): `pc <- x[a]`. -/
def execJmp (a : Byte) (s : State) : Result :=
  withReg .jmp a s fun ra => .next (s.setPc (s.reg ra))

/-- JEQ (R154): to `x[a]` if `fl.E = 1`, else `pc +8 2`. -/
def execJeq (a : Byte) (s : State) : Result :=
  withReg .jeq a s fun ra => if s.fl.E then .next (s.setPc (s.reg ra)) else .next (s.advance 2)

/-- JNE (R155): to `x[a]` if `fl.E = 0`, else `pc +8 2`. -/
def execJne (a : Byte) (s : State) : Result :=
  withReg .jne a s fun ra => if s.fl.E then .next (s.advance 2) else .next (s.setPc (s.reg ra))

end Sys2Proof.Machine
end

