-- ==== Sys2Proof/Machine/LoadOutputHalt.lean ====
section
/-!
DEFINITION. LDI, PRN and HLT (41_load_output_halt.md R130 to R132).
-/

namespace Sys2Proof.Machine

/-- LDI (R130): `x[a] <- b; pc <- pc +8 3`. The immediate is not checked. -/
def execLdi (a imm : Byte) (s : State) : Result :=
  withReg .ldi a s fun ra => .next ((s.setReg ra imm).advance 3)

/-- PRN (R131): `Out(x[a]); pc <- pc +8 2`. -/
def execPrn (a : Byte) (s : State) : Result :=
  withReg .prn a s fun ra => .next ((s.emit (s.reg ra)).advance 2)

/-- HLT (R132): `halt; pc <- pc +8 1` (the final pc is the spec's D5). -/
def execHlt (s : State) : Result := .next (s.halt.advance 1)

end Sys2Proof.Machine
end

