-- ==== Sys2Proof/Machine/Flags.lean ====
section
/-!
DEFINITION. The one flag computation of CA-CORE: CMP's (45_alu_logic_shift_cmp.md R197). No other instruction writes a
flag (10_state.md R27).
-/

namespace Sys2Proof.Machine

/-- The flags CMP sets from the two unsigned values; all three are written (R197; direction and signedness are the
spec's D7). -/
def compareFlags (x y : Byte) : Flags :=
  { E := decide (x.toNat = y.toNat), L := decide (x.toNat < y.toNat), G := decide (y.toNat < x.toNat) }

end Sys2Proof.Machine
end

