-- ==== Sys2Proof/Machine/Logic.lean ====
section
/-!
DEFINITION. AND, OR, XOR, NOT, SHL, SHR and CMP (45_alu_logic_shift_cmp.md R190 to R197).
-/

namespace Sys2Proof.Machine

/-- AND (R190): `x[a] <- x[a] & x[b]`. -/
def execAnd (a b : Byte) (s : State) : Result := aluBinary .and aluAnd a b s

/-- OR (R191): `x[a] <- x[a] | x[b]`. -/
def execOr (a b : Byte) (s : State) : Result := aluBinary .or aluOr a b s

/-- XOR (R192): `x[a] <- x[a] ^ x[b]`. -/
def execXor (a b : Byte) (s : State) : Result := aluBinary .xor aluXor a b s

/-- NOT (R193): `x[a] <- 255 - x[a]; pc <- pc +8 3`. The third byte is neither checked nor used (R88). -/
def execNot (a _ignored : Byte) (s : State) : Result :=
  withReg .not a s fun ra => .next ((s.setReg ra (aluNot (s.reg ra))).advance 3)

/-- SHL (R194): `x[a] <- (x[a] * 2^x[b]) mod 256`. -/
def execShl (a b : Byte) (s : State) : Result := aluBinary .shl aluShl a b s

/-- SHR (R195): `x[a] <- x[a] div 2^x[b]`. -/
def execShr (a b : Byte) (s : State) : Result := aluBinary .shr aluShr a b s

/-- CMP (R197): all three flags from the values of `x[a]` and `x[b]`; `pc <- pc +8 3`; no register is written. -/
def execCmp (a b : Byte) (s : State) : Result :=
  withRegs .cmp a b s fun ra rb => .next ((s.setFlags (compareFlags (s.reg ra) (s.reg rb))).advance 3)

end Sys2Proof.Machine
end

