-- ==== Sys2Proof/Machine/Stack.lean ====
section
/-!
DEFINITION. PUSH and POP (42_stack.md R140 to R142), their parts in the written order, each seeing the ones before it
(40_sequencer.md R118).
-/

namespace Sys2Proof.Machine

/-- PUSH (R141): `sp <- sp -8 1; MemWrite(sp, 1, x[a]); pc <- pc +8 2`. PUSH R7 stores the decremented `sp`. -/
def execPush (a : Byte) (s : State) : Result :=
  withReg .push a s fun ra =>
    let s1 := s.setSp (s.sp - 1)
    let s2 := s1.memWrite s1.sp (s1.reg ra)
    .next (s2.advance 2)

/-- POP (R142): `x[a] <- MemRead(sp, 1); sp <- sp +8 1; pc <- pc +8 2`. POP R7 ends with the popped byte plus one. -/
def execPop (a : Byte) (s : State) : Result :=
  withReg .pop a s fun ra =>
    let s1 := s.setReg ra (s.memRead s.sp)
    let s2 := s1.setSp (s1.sp + 1)
    .next (s2.advance 2)

end Sys2Proof.Machine
end

