-- ==== Sys2Proof/Machine/Step.lean ====
section
/-!
DEFINITION. One step of the sequencer (40_sequencer.md R110 to R121): one whole instruction.
-/

namespace Sys2Proof.Machine

/-- The step of R121. With `status = Running`: fetch, decode, and either raise the decoder's error (R211, R214) or
execute. In `Halted` and `Errored` there is no step (R120): it stops by name (log entry 2). -/
def step (s : State) : Host.Outcome State Fault Refusal :=
  match s.status with
  | .halted => .fault .runHalted
  | .errored => .fault .runErrored
  | .running =>
    match s.decodeNext with
    | .instr i => exec i s
    | .unknownOpcode => .next (s.raise .unknownOpcode (s.memRead s.pc))
    | .invalidRegister => .next (s.raise .invalidRegister (s.memRead s.pc))

/-- `s` with a table word stored where `step` fetches its next instruction, and in the one status in which it fetches:
`Running`, which holds no fault record (R31, R112; log entry 5). -/
def State.withFetchWord (s : State) (nbits w : Nat) : State :=
  { s.storeAtPc nbits w with status := .running, fault := none }

end Sys2Proof.Machine
end

