-- ==== Sys2Proof/Safety.lean ====
section
/-!
DEFINITION. What claims about CA-CORE are said in: the invariant of its states, and the frames of its instructions (what
a meaning leaves unchanged), each written out field by field through the model's read of one register and of one byte.
-/

namespace Sys2Proof.Machine

/-- No two of the three flags are set (R27: "mutually exclusive"). -/
def Flags.atMostOne (f : Flags) : Prop := ¬ (f.E ∧ f.L) ∧ ¬ (f.E ∧ f.G) ∧ ¬ (f.L ∧ f.G)

/-- Exactly one of the three flags is set (R28). -/
def Flags.exactlyOne (f : Flags) : Prop := f.atMostOne ∧ (f.E ∨ f.L ∨ f.G)

/-- The error kinds a program can raise (R210's last column). -/
def Cause.reachable (c : Cause) : Prop := c = .unknownOpcode ∨ c = .divisionByZero ∨ c = .invalidRegister

/-- What holds of the machine at reset and after every step. -/
structure State.Inv (s : State) : Prop where
  /-- memory lists no address outside [0,255] (R50) and is in the canonical list form, the model's own DESIGN CHOICE (log
  entry 8) -/
  mem_wf : s.mem.wf = true
  /-- no two flags are set (R27) -/
  flags_exclusive : s.fl.atMostOne
  /-- a fault record is present exactly in `Errored` (R31) -/
  fault_iff_errored : s.fault.isSome = true ↔ s.status = .errored
  /-- the record names the error's own address and opcode byte, and a cause a program can raise (R31, R215, R216, R219;
  the spec's decisions D10 and D11, log entry 18) -/
  record_precise : ∀ r, s.fault = some r → r.pc = s.pc ∧ r.op = s.memRead s.pc ∧ r.cause.reachable

/-- Every register reads as before. -/
def SameRegs (s t : State) : Prop := ∀ q : Reg, t.reg q = s.reg q

/-- Every register but `r` reads as before. -/
def SameRegsBut (r : Reg) (s t : State) : Prop := ∀ q : Reg, q ≠ r → t.reg q = s.reg q

/-- Every byte of memory reads as before. -/
def SameMem (s t : State) : Prop := ∀ p : Byte, t.memRead p = s.memRead p

/-- Every byte of memory but the one at `a` reads as before. -/
def SameMemBut (a : Byte) (s t : State) : Prop := ∀ p : Byte, p ≠ a → t.memRead p = s.memRead p

/-- The flags, the status, the fault record and the output trace are as before. -/
def SameRest (s t : State) : Prop := t.fl = s.fl ∧ t.status = s.status ∧ t.fault = s.fault ∧ t.out = s.out

/-- The instruction completes with a value that meets `P` in register `ra`, goes on `len` bytes after its opcode, and
changes nothing else: no other register, no flag, no byte of memory, no status, no fault record, no output. -/
def CompletesWith (i : Instr) (s : State) (ra : Reg) (len : Nat) (P : Byte → Prop) : Prop :=
  ∃ t, exec i s = .next t ∧ P (t.reg ra) ∧ t.pc.toNat = (s.pc.toNat + len) % 256 ∧
    SameRegsBut ra s t ∧ SameMem s t ∧ SameRest s t

/-- The instruction raises the error `c`: the next state differs from `s` in the status and the fault record alone,
and the record holds the instruction's address and its opcode byte (R219). -/
def Raises (i : Instr) (s : State) (c : Cause) : Prop :=
  exec i s = .next { s with status := .errored, fault := some ⟨c, s.pc, defaultOpc i.mnemonic⟩ }

/-- The register operand byte an instruction writes its result to (R23: "register, written", "read then written",
"written only"), where it has one. -/
def destination : Instr → Option Byte
  | .ldi a _ => some a
  | .pop a => some a
  | .add a _ => some a
  | .sub a _ => some a
  | .mul a _ => some a
  | .div a _ => some a
  | .mod a _ => some a
  | .inc a _ => some a
  | .dec a _ => some a
  | .and a _ => some a
  | .not a _ => some a
  | .or a _ => some a
  | .xor a _ => some a
  | .shl a _ => some a
  | .shr a _ => some a
  | .hlt => none
  | .ret => none
  | .push _ => none
  | .prn _ => none
  | .call _ => none
  | .jmp _ => none
  | .jeq _ => none
  | .jne _ => none
  | .cmp _ _ => none

/-- The mnemonics that move the stack pointer (R140). -/
def movesSp (m : Mnemonic) : Prop := m = .push ∨ m = .pop ∨ m = .call ∨ m = .ret

/-- The bytes of `bytes` stand at `pc`, `pc +8 1`, ... (R80: consecutive addresses modulo 256). -/
def BytesAtPc (bytes : List Byte) (s : State) : Prop :=
  ∀ (k : Nat) (b : Byte), bytes[k]? = some b → s.memRead (s.pc + BitVec.ofNat 8 k) = b

end Sys2Proof.Machine
end

