-- ==== Sys2Proof/Certificates/Slice0/Obligations.lean ====
section
/-!
DEFINITION. The statements about the model for the provers, each a proposition over `exec`, `step`, the decoder or the
state, with the rule of spec/ it formalises. Where a clause rests on a decision the spec marks as its own (D1 to D21 of
92_eei_decisions.md), the docstring names it. Log entries are those of notes/assumptions/.
-/

open Sys2Proof Sys2Proof.Machine

/-! ## Decoding and encoding -/

/-- Words written out from R85's and R81's bit patterns decode to the instructions they stand for; the words the spec
says are no instruction are rejected by name (R83, R87, R88). Opcode values: D1; rejected registers: D2. -/
def Obligations.WrittenOutWordsDecode : Prop :=
  decode 0b10000010 0b00000101 0b00001001 = .instr (.ldi 5 9) ∧
  decode 0b01000101 0b00000111 0b11111111 = .instr (.push 7) ∧
  decode 0b00010001 0b11111111 0b11111111 = .instr .ret ∧
  decode 0b10100001 0b00000010 0b00000110 = .instr (.sub 2 6) ∧
  decode 0b10101001 0b00000011 0b01010101 = .instr (.not 3 0x55) ∧
  decode 0b10100011 0b00001001 0b00000001 = .invalidRegister ∧
  decode 0b10100101 0b00000000 0b11111111 = .invalidRegister ∧
  decode 0b01100101 0b00000000 0b00000000 = .unknownOpcode ∧
  decode 0b00000000 0b00000000 0b00000000 = .unknownOpcode

/-- A byte is rejected as an unknown opcode exactly when it is none of the 24 values, whatever follows it (R87). The
values are D1's. -/
def Obligations.UnknownOpcodeBytes : Prop :=
  ∀ op a b : Byte, decode op a b = .unknownOpcode ↔
    op ∉ ([0x01, 0x11, 0x45, 0x46, 0x47, 0x50, 0x54, 0x55, 0x56, 0x82] ++
      [0xA0, 0xA1, 0xA2, 0xA3, 0xA4, 0xA5, 0xA6, 0xA7, 0xA8, 0xA9, 0xAA, 0xAB, 0xAC, 0xAD] : List Byte)

/-- Under any injective OPC (R85), decoding the encoding of any well-formed instruction gives it back, whatever bytes
`x` and `y` stand after it in memory. -/
def Obligations.DecodeOfEncodeUnderAnyOpcodeMap : Prop :=
  ∀ opc : Mnemonic → Byte, Function.Injective opc → ∀ (i : Instr) (x y : Byte), i.wellFormed = true →
    match encodeWith opc i ++ [x, y] with
    | op :: a :: b :: _ => decodeWith opc op a b = .instr i
    | _ => False

/-- Whatever the decoder accepts is well formed, and its encoding is exactly the bytes it was read from, as many as its
opcode's row says (R80, R82): no bit of an instruction is dropped or invented. -/
def Obligations.DecodedInstructionReencodes : Prop :=
  ∀ (opc : Mnemonic → Byte) (op a b : Byte) (i : Instr), decodeWith opc op a b = .instr i →
    i.wellFormed = true ∧ encodeWith opc i = [op, a, b].take i.mnemonic.length

/-! ## The step -/

/-- A step of a running machine is the meaning of the instruction that the bytes at `pc` decode to (R112 to R116,
R121). The meaning itself moves `pc`: the step adds nothing around it. -/
def Obligations.StepRunsDecodedInstruction : Prop :=
  ∀ (s : State) (i : Instr), s.status = .running →
    decode (s.memRead s.pc) (s.memRead (s.pc + 1)) (s.memRead (s.pc + 2)) = .instr i →
    i.wellFormed = true ∧ step s = exec i s

/-- Every well-formed instruction whose encoding stands at `pc`, over the wrap from 255 to 0 too, is what the step
executes (R80, R112 to R116). The wrap is D4. -/
def Obligations.EncodedInstructionAtPcRuns : Prop :=
  ∀ (s : State) (i : Instr), s.status = .running → i.wellFormed = true → BytesAtPc (encode i) s → step s = exec i s

/-- R211: a byte at `pc` that is no mnemonic's opcode raises UnknownOpcode with its address and its value, and nothing
else changes. -/
def Obligations.UnknownOpcodeRaises : Prop :=
  ∀ s : State, s.status = .running → (∀ m, defaultOpc m ≠ s.memRead s.pc) →
    step s = .next { s with status := .errored, fault := some ⟨.unknownOpcode, s.pc, s.memRead s.pc⟩ }

/-- R218's order (D12, D2): a register operand byte above 7 raises InvalidRegister before anything else of the
instruction, a DIV by zero too, with the address and the byte at `pc`. -/
def Obligations.InvalidRegisterPrecedesExecution : Prop :=
  ∀ (s : State) (m : Mnemonic), s.status = .running → s.memRead s.pc = defaultOpc m →
    (m.checksA = true ∧ 8 ≤ (s.memRead (s.pc + 1)).toNat ∨ m.checksB = true ∧ 8 ≤ (s.memRead (s.pc + 2)).toNat) →
    step s = .next { s with status := .errored, fault := some ⟨.invalidRegister, s.pc, s.memRead s.pc⟩ }

/-- R120, R220: in `Halted` and in `Errored` there is no step. That the model answers this by a named stop is its own
choice (log entry 2). -/
def Obligations.NoStepAfterTheEnd : Prop :=
  ∀ s : State, (s.status = .halted → step s = .fault .runHalted) ∧ (s.status = .errored → step s = .fault .runErrored)

/-- In `Running` there is always a next state: no fault, no refusal, no instruction that waits (R121: total; R11). -/
def Obligations.RunningAlwaysSteps : Prop :=
  ∀ s : State, s.status = .running → ∃ t, step s = .next t

/-- R111: the sequencer's transitions. A step starts in `Running`; it ends in `Halted` exactly when it executes HLT, in
`Errored` exactly when it raises an error, and else in `Running`. Reset gives `Running` with pc = 0. -/
def Obligations.StatusTransitions : Prop :=
  (State.reset.status = .running ∧ State.reset.pc = 0) ∧
  ∀ s t : State, step s = .next t →
    s.status = .running ∧
    (t.status = .halted ↔ s.memRead s.pc = defaultOpc .hlt) ∧
    (t.status = .errored ↔ ∃ c op, t = { s with status := .errored, fault := some ⟨c, s.pc, op⟩ })

/-- R119, R219 (D10): a step that ends in `Errored` changed nothing but the status and the fault record; the record
names the address and the opcode byte of the instruction and one of the three causes a program can raise (R215, R216). -/
def Obligations.ErrorsArePrecise : Prop :=
  ∀ s t : State, step s = .next t → t.status = .errored →
    ∃ c : Cause, c.reachable ∧ t = { s with status := .errored, fault := some ⟨c, s.pc, s.memRead s.pc⟩ }

/-! ## Invariants and whole-machine rules -/

/-- Every step keeps the invariant. Its clauses: memory lists no address outside [0,255] (R50) and is in the canonical
list form, which is the model's own DESIGN CHOICE (log entry 8); no two flags are set (R27); a fault record is present
exactly in `Errored` (R31); that record is precise, which rests on the decisions D10 and D11 (log entry 18). -/
def Obligations.StepKeepsInv : Prop :=
  ∀ s t : State, s.Inv → step s = .next t → t.Inv

/-- The reset state has the invariant. The canonical list form of its memory is the model's own DESIGN CHOICE (log entry
8), the memory itself that of the empty image (DESIGN CHOICE, log entry 4); that no flag is set is D6 (log entry 13); the
clause on a record is D10 and D11 (log entry 18), and holds at reset since there is none. -/
def Obligations.ResetHasInv : Prop := State.reset.Inv

/-- Every state a loaded program starts in has the invariant, and a program of more than 256 bytes is refused (R241,
D14; log entry 4). The canonical list form of memory is the model's own DESIGN CHOICE (log entry 8); that no flag is set
is D6 (log entry 13); the clause on a record is D10 and D11 (log entry 18). -/
def Obligations.LoadedImageHasInv : Prop :=
  (∀ (program : List Byte) (s : State), State.load program = some s → s.Inv) ∧
  ∀ program : List Byte, 256 < program.length → State.load program = none

/-- R240: reset with an image establishes exactly the reset state: x[0..6] = 0, x[7] = 0xF4, pc = 0, all flags 0 (D6),
memory the image and 0 from its length on, `Running`, no fault record, no output. The model's reset state is that of
the empty image. -/
def Obligations.ResetEstablishesState : Prop :=
  (∀ program : List Byte, program.length ≤ 256 → ∃ s, State.load program = some s ∧
    (∀ r : Reg, s.reg r = if r = 7 then 0xF4 else 0) ∧ s.pc = 0 ∧ s.fl = ⟨false, false, false⟩ ∧
    (∀ p : Byte, s.memRead p = (program[p.toNat]?).getD 0) ∧ s.status = .running ∧ s.fault = none ∧ s.out = []) ∧
  State.load [] = some State.reset

/-- R27: CMP, and nothing else, writes the flags, and sets exactly one; and no instruction reads Less or Greater: with
other values of those two, every instruction gives the same next state but for the flags. -/
def Obligations.OnlyCmpWritesFlags : Prop :=
  (∀ (i : Instr) (s t : State), exec i s = .next t → i.mnemonic ≠ .cmp → t.fl = s.fl) ∧
  (∀ (ra rb : Reg) (s : State), ∃ t, exec (.cmp ra.byte rb.byte) s = .next t ∧ t.fl.exactlyOne) ∧
  ∀ (i : Instr) (s t : State) (l g : Bool), exec i s = .next t →
    ∃ t', exec i { s with fl := { s.fl with L := l, G := g } } = .next t' ∧ { t' with fl := t.fl } = t

/-- R28 (D6 for the reset value): once exactly one flag is set, that stays so; at reset none is. -/
def Obligations.ExactlyOneFlagPersists : Prop :=
  (∀ s t : State, s.fl.exactlyOne → step s = .next t → t.fl.exactlyOne) ∧
  State.reset.fl = ⟨false, false, false⟩

/-- R64, R55: PUSH and CALL are the only instructions that write memory, and they write the one byte at `sp -8 1`. -/
def Obligations.OnlyPushAndCallWriteMemory : Prop :=
  ∀ (i : Instr) (s t : State) (p : Byte), exec i s = .next t → t.memRead p ≠ s.memRead p →
    (i.mnemonic = .push ∨ i.mnemonic = .call) ∧ p = s.sp - 1

/-- R20, R23, R140: a register changes only if the instruction writes its result to it, or it is R7 and the instruction
is PUSH, POP, CALL or RET. -/
def Obligations.RegistersWrittenAsDeclared : Prop :=
  ∀ (i : Instr) (s t : State) (r : Reg), exec i s = .next t → t.reg r ≠ s.reg r →
    destination i = some r.byte ∨ (r = 7 ∧ movesSp i.mnemonic)

/-- R26: an instruction that is no control transfer and completes goes on at the byte after its last one, modulo 256
(the wrap is D4, HLT's pc is D5). -/
def Obligations.FallThroughByLength : Prop :=
  ∀ (i : Instr) (s t : State), exec i s = .next t → s.status = .running → t.status ≠ .errored →
    i.mnemonic ∉ [.call, .ret, .jmp, .jeq, .jne] → t.pc.toNat = (s.pc.toNat + i.mnemonic.length) % 256

/-- R32 (D3): the output only grows, by one byte and only by PRN; and no instruction reads it: from any other output
trace every instruction does the same and appends the same. -/
def Obligations.OutputOnlyGrows : Prop :=
  ∀ (i : Instr) (s t : State), exec i s = .next t →
    ∃ l : List Byte, t.out = s.out ++ l ∧ l.length ≤ 1 ∧ (l ≠ [] → i.mnemonic = .prn) ∧
      ∀ o : List Byte, exec i { s with out := o } = .next { t with out := o ++ l }

/-- R122, R210, R224: what a run delivers, in any state: the output trace; the status code, 0, 1 or 2 in `Running`,
`Halted` or `Errored`; with no fault record the cause code 0 and no address or opcode, and with a record its cause's code,
1 to 5, and its address and opcode. In a state with the invariant (which holds at reset and after every step) the host so
sees a cause, and an address and opcode, exactly when it sees the status code 2. The codes, and that every record is the
same triple, are D11 (log entry 18). -/
def Obligations.HostSeesCauseExactlyWhenErrored : Prop :=
  ∀ s : State, ∃ st c w, s.delivers = (s.out, st, c, w) ∧
    (st = 0 ↔ s.status = .running) ∧ (st = 1 ↔ s.status = .halted) ∧ (st = 2 ↔ s.status = .errored) ∧
    (s.fault = none → c = 0 ∧ w = none) ∧
    (∀ r, s.fault = some r → w = some (r.pc, r.op) ∧
      (c = 1 ↔ r.cause = .unknownOpcode) ∧ (c = 2 ↔ r.cause = .unsupportedALUOperation) ∧
      (c = 3 ↔ r.cause = .divisionByZero) ∧ (c = 4 ↔ r.cause = .memoryOutOfRange) ∧
      (c = 5 ↔ r.cause = .invalidRegister)) ∧
    (s.Inv → (c ≠ 0 ↔ st = 2) ∧ (w.isSome = true ↔ st = 2))

/-! ## The instructions -/

/-- R83, R115, R214 (D2): every instruction with a register operand byte above 7 raises InvalidRegister and does
nothing else, whether or not it would use the register. -/
def Obligations.InvalidRegisterRaisedByEveryForm : Prop :=
  ∀ (i : Instr) (s : State), i.wellFormed = false → Raises i s .invalidRegister

/-- R130: LDI puts its immediate, any byte, in its register and goes on 3 bytes further; nothing else changes. A
register byte above 7 raises InvalidRegister (D2). -/
def Obligations.LdiLoadsImmediate : Prop :=
  (∀ (ra : Reg) (imm : Byte) (s : State), decode 0b10000010 ra.byte imm = .instr (.ldi ra.byte imm) ∧
    CompletesWith (.ldi ra.byte imm) s ra 3 (fun v => v = imm)) ∧
  ∀ (a imm : Byte) (s : State), 7 < a.toNat → Raises (.ldi a imm) s .invalidRegister

/-- R131 (D3): PRN appends the register's byte to the output and goes on 2 bytes further; nothing else changes. -/
def Obligations.PrnEmitsRegister : Prop :=
  (∀ (ra : Reg) (z : Byte) (s : State), decode 0b01000111 ra.byte z = .instr (.prn ra.byte) ∧
    exec (.prn ra.byte) s = .next { s with out := s.out ++ [s.reg ra], pc := s.pc + 2 }) ∧
  ∀ (a : Byte) (s : State), 7 < a.toNat → Raises (.prn a) s .invalidRegister

/-- R132 (D5 for the final pc): HLT sets the status to `Halted` and `pc` to the next address, modulo 256; no register, no
byte of memory, no flag, no fault record and no output changes; and no further step happens (that the model answers this
by a named stop is log entry 2). -/
def Obligations.HltHalts : Prop :=
  ∀ (y z : Byte) (s : State), decode 0b00000001 y z = .instr .hlt ∧
    ∃ t, exec .hlt s = .next t ∧ t.status = .halted ∧ t.pc.toNat = (s.pc.toNat + 1) % 256 ∧
      SameRegs s t ∧ SameMem s t ∧ t.fl = s.fl ∧ t.fault = s.fault ∧ t.out = s.out ∧ step t = .fault .runHalted

/-- R141: PUSH decrements `sp` modulo 256, stores the register's byte at the new `sp` (the decremented value for R7),
goes on 2 bytes further, and changes no other register, no other byte of memory and nothing else. -/
def Obligations.PushDecrementsAndStores : Prop :=
  (∀ (ra : Reg) (z : Byte) (s : State), decode 0b01000101 ra.byte z = .instr (.push ra.byte) ∧
    ∃ t, exec (.push ra.byte) s = .next t ∧ t.sp = s.sp - 1 ∧
      t.memRead (s.sp - 1) = (if ra = 7 then s.sp - 1 else s.reg ra) ∧ t.pc = s.pc + 2 ∧
      SameRegsBut 7 s t ∧ SameMemBut (s.sp - 1) s t ∧ SameRest s t) ∧
  ∀ (a : Byte) (s : State), 7 < a.toNat → Raises (.push a) s .invalidRegister

/-- R142: POP loads the byte at `sp` into its register, increments `sp` modulo 256 (POP R7 ends with the popped byte
plus one), goes on 2 bytes further, and changes no other register, no memory and nothing else. -/
def Obligations.PopLoadsAndIncrements : Prop :=
  (∀ (ra : Reg) (z : Byte) (s : State), decode 0b01000110 ra.byte z = .instr (.pop ra.byte) ∧
    ∃ t, exec (.pop ra.byte) s = .next t ∧
      (if ra = 7 then t.sp = s.memRead s.sp + 1 else t.reg ra = s.memRead s.sp ∧ t.sp = s.sp + 1) ∧
      t.pc = s.pc + 2 ∧ (∀ q : Reg, q ≠ ra → q ≠ 7 → t.reg q = s.reg q) ∧ SameMem s t ∧ SameRest s t) ∧
  ∀ (a : Byte) (s : State), 7 < a.toNat → Raises (.pop a) s .invalidRegister

/-- R151: CALL decrements `sp`, stores `pc +8 2` at the new `sp`, and goes to the register's address (for R7 the
decremented `sp`); no other register, no other byte of memory and nothing else changes. -/
def Obligations.CallPushesReturnAddress : Prop :=
  (∀ (ra : Reg) (z : Byte) (s : State), decode 0b01010000 ra.byte z = .instr (.call ra.byte) ∧
    ∃ t, exec (.call ra.byte) s = .next t ∧ t.sp = s.sp - 1 ∧ t.memRead (s.sp - 1) = s.pc + 2 ∧
      t.pc = (if ra = 7 then s.sp - 1 else s.reg ra) ∧
      SameRegsBut 7 s t ∧ SameMemBut (s.sp - 1) s t ∧ SameRest s t) ∧
  ∀ (a : Byte) (s : State), 7 < a.toNat → Raises (.call a) s .invalidRegister

/-- R152: RET goes to the byte at `sp`, whatever put it there, and increments `sp`; nothing else changes. -/
def Obligations.RetPopsTarget : Prop :=
  ∀ (y z : Byte) (s : State), decode 0b00010001 y z = .instr .ret ∧
    ∃ t, exec .ret s = .next t ∧ t.pc = s.memRead s.sp ∧ t.sp = s.sp + 1 ∧
      SameRegsBut 7 s t ∧ SameMem s t ∧ SameRest s t

/-- R153: JMP goes to the register's address; nothing else changes. -/
def Obligations.JmpGoesToRegister : Prop :=
  (∀ (ra : Reg) (z : Byte) (s : State), decode 0b01010100 ra.byte z = .instr (.jmp ra.byte) ∧
    exec (.jmp ra.byte) s = .next { s with pc := s.reg ra }) ∧
  ∀ (a : Byte) (s : State), 7 < a.toNat → Raises (.jmp a) s .invalidRegister

/-- R154, R155: JEQ branches exactly when Equal is set and JNE exactly when it is not; the other goes on 2 bytes
further. Nothing else changes. A register byte above 7 raises InvalidRegister, branch taken or not (D2). -/
def Obligations.JeqAndJneBranchOnEqual : Prop :=
  (∀ (ra : Reg) (z : Byte) (s : State),
    decode 0b01010101 ra.byte z = .instr (.jeq ra.byte) ∧ decode 0b01010110 ra.byte z = .instr (.jne ra.byte) ∧
    exec (.jeq ra.byte) s = .next { s with pc := if s.fl.E then s.reg ra else s.pc + 2 } ∧
    exec (.jne ra.byte) s = .next { s with pc := if s.fl.E then s.pc + 2 else s.reg ra }) ∧
  ∀ (a : Byte) (s : State), 7 < a.toNat → Raises (.jeq a) s .invalidRegister ∧ Raises (.jne a) s .invalidRegister

/-- R172, R173, R174: ADD, SUB and MUL write the exact sum, difference and product reduced by the mathematical modulo
256, on 3 bytes further; nothing else changes. A register byte above 7 raises InvalidRegister (D2). -/
def Obligations.AddSubMulWrap : Prop :=
  (∀ (ra rb : Reg) (s : State),
    decode 0b10100000 ra.byte rb.byte = .instr (.add ra.byte rb.byte) ∧
    decode 0b10100001 ra.byte rb.byte = .instr (.sub ra.byte rb.byte) ∧
    decode 0b10100010 ra.byte rb.byte = .instr (.mul ra.byte rb.byte) ∧
    CompletesWith (.add ra.byte rb.byte) s ra 3 (fun v => v.toNat = ((s.reg ra).toNat + (s.reg rb).toNat) % 256) ∧
    CompletesWith (.sub ra.byte rb.byte) s ra 3
      (fun v => (v.toNat : Int) = ((s.reg ra).toNat - (s.reg rb).toNat : Int) % 256) ∧
    CompletesWith (.mul ra.byte rb.byte) s ra 3 (fun v => v.toNat = ((s.reg ra).toNat * (s.reg rb).toNat) % 256)) ∧
  ∀ (a b : Byte) (s : State), 7 < a.toNat ∨ 7 < b.toNat →
    Raises (.add a b) s .invalidRegister ∧ Raises (.sub a b) s .invalidRegister ∧ Raises (.mul a b) s .invalidRegister

/-- R175, R176 (D8 for the rounding): with a divisor value other than 0, DIV writes the floor quotient and MOD the
remainder of the unsigned values; with the value 0 both raise DivisionByZero and write nothing. -/
def Obligations.DivModOrDivisionByZero : Prop :=
  (∀ (ra rb : Reg) (s : State),
    decode 0b10100011 ra.byte rb.byte = .instr (.div ra.byte rb.byte) ∧
    decode 0b10100100 ra.byte rb.byte = .instr (.mod ra.byte rb.byte) ∧
    (s.reg rb ≠ 0 →
      CompletesWith (.div ra.byte rb.byte) s ra 3 (fun v => v.toNat = (s.reg ra).toNat / (s.reg rb).toNat) ∧
      CompletesWith (.mod ra.byte rb.byte) s ra 3 (fun v => v.toNat = (s.reg ra).toNat % (s.reg rb).toNat)) ∧
    (s.reg rb = 0 →
      Raises (.div ra.byte rb.byte) s .divisionByZero ∧ Raises (.mod ra.byte rb.byte) s .divisionByZero)) ∧
  ∀ (a b : Byte) (s : State), 7 < a.toNat ∨ 7 < b.toNat →
    Raises (.div a b) s .invalidRegister ∧ Raises (.mod a b) s .invalidRegister

/-- R177, R178: INC and DEC write the second register's value plus or minus one, modulo 256, to the first; the first
register's old value plays no part; nothing else changes. A register byte above 7 raises InvalidRegister (D2). -/
def Obligations.IncDecFromSource : Prop :=
  (∀ (ra rb : Reg) (s : State),
    decode 0b10100101 ra.byte rb.byte = .instr (.inc ra.byte rb.byte) ∧
    decode 0b10100110 ra.byte rb.byte = .instr (.dec ra.byte rb.byte) ∧
    CompletesWith (.inc ra.byte rb.byte) s ra 3 (fun v => v.toNat = ((s.reg rb).toNat + 1) % 256) ∧
    CompletesWith (.dec ra.byte rb.byte) s ra 3 (fun v => (v.toNat : Int) = ((s.reg rb).toNat - 1 : Int) % 256)) ∧
  ∀ (a b : Byte) (s : State), 7 < a.toNat ∨ 7 < b.toNat →
    Raises (.inc a b) s .invalidRegister ∧ Raises (.dec a b) s .invalidRegister

/-- R190, R191, R192: AND, OR and XOR, bit by bit; nothing else changes. A register byte above 7 raises
InvalidRegister (D2). -/
def Obligations.AndOrXorBitwise : Prop :=
  (∀ (ra rb : Reg) (s : State),
    decode 0b10101000 ra.byte rb.byte = .instr (.and ra.byte rb.byte) ∧
    decode 0b10101010 ra.byte rb.byte = .instr (.or ra.byte rb.byte) ∧
    decode 0b10101011 ra.byte rb.byte = .instr (.xor ra.byte rb.byte) ∧
    CompletesWith (.and ra.byte rb.byte) s ra 3
      (fun v => ∀ k < 8, v.getLsbD k = true ↔ (s.reg ra).getLsbD k = true ∧ (s.reg rb).getLsbD k = true) ∧
    CompletesWith (.or ra.byte rb.byte) s ra 3
      (fun v => ∀ k < 8, v.getLsbD k = true ↔ (s.reg ra).getLsbD k = true ∨ (s.reg rb).getLsbD k = true) ∧
    CompletesWith (.xor ra.byte rb.byte) s ra 3
      (fun v => ∀ k < 8, v.getLsbD k = true ↔ (s.reg ra).getLsbD k ≠ (s.reg rb).getLsbD k)) ∧
  ∀ (a b : Byte) (s : State), 7 < a.toNat ∨ 7 < b.toNat →
    Raises (.and a b) s .invalidRegister ∧ Raises (.or a b) s .invalidRegister ∧ Raises (.xor a b) s .invalidRegister

/-- R193, R88 (D13): NOT writes `255 - x[a]`, 3 bytes long, whatever its third byte is; nothing else changes. Only the
first operand byte is checked. -/
def Obligations.NotComplementsIgnoringThirdByte : Prop :=
  (∀ (ra : Reg) (z : Byte) (s : State), decode 0b10101001 ra.byte z = .instr (.not ra.byte z) ∧
    CompletesWith (.not ra.byte z) s ra 3 (fun v => v.toNat = 255 - (s.reg ra).toNat)) ∧
  ∀ (a z : Byte) (s : State), 7 < a.toNat → Raises (.not a z) s .invalidRegister

/-- R194, R195: SHL and SHR by the whole value of the second register, 0 to 255; logical; a count of 8 or more gives 0;
nothing else changes. A register byte above 7 raises InvalidRegister (D2). -/
def Obligations.ShiftsByWholeCount : Prop :=
  (∀ (ra rb : Reg) (s : State),
    decode 0b10101100 ra.byte rb.byte = .instr (.shl ra.byte rb.byte) ∧
    decode 0b10101101 ra.byte rb.byte = .instr (.shr ra.byte rb.byte) ∧
    CompletesWith (.shl ra.byte rb.byte) s ra 3
      (fun v => v.toNat = ((s.reg ra).toNat * 2 ^ (s.reg rb).toNat) % 256 ∧ (8 ≤ (s.reg rb).toNat → v = 0)) ∧
    CompletesWith (.shr ra.byte rb.byte) s ra 3
      (fun v => v.toNat = (s.reg ra).toNat / 2 ^ (s.reg rb).toNat ∧ (8 ≤ (s.reg rb).toNat → v = 0))) ∧
  ∀ (a b : Byte) (s : State), 7 < a.toNat ∨ 7 < b.toNat →
    Raises (.shl a b) s .invalidRegister ∧ Raises (.shr a b) s .invalidRegister

/-- R197 (D7 for direction and signedness): CMP sets all three flags from the unsigned values of its registers, exactly
one of them, and goes on 3 bytes further; no register, no memory and nothing else changes. -/
def Obligations.CmpSetsExactlyOneFlag : Prop :=
  (∀ (ra rb : Reg) (s : State), decode 0b10100111 ra.byte rb.byte = .instr (.cmp ra.byte rb.byte) ∧
    ∃ t, exec (.cmp ra.byte rb.byte) s = .next t ∧ t.fl.exactlyOne ∧
      (t.fl.E = true ↔ (s.reg ra).toNat = (s.reg rb).toNat) ∧
      (t.fl.L = true ↔ (s.reg ra).toNat < (s.reg rb).toNat) ∧
      (t.fl.G = true ↔ (s.reg ra).toNat > (s.reg rb).toNat) ∧
      t.pc = s.pc + 3 ∧ SameRegs s t ∧ SameMem s t ∧ t.status = s.status ∧ t.fault = s.fault ∧ t.out = s.out) ∧
  ∀ (a b : Byte) (s : State), 7 < a.toNat ∨ 7 < b.toNat → Raises (.cmp a b) s .invalidRegister

/-! ## Two instructions together -/

/-- R142's worked example: PUSH Ra then POP Rb, run from memory, gives Rb the value of Ra and restores `sp`, for every
value and every `sp`, unless the store hits the POP itself. R7 is excepted as R142 (c) and R141 (b) say. -/
def Obligations.PushThenPopRoundTrips : Prop :=
  ∀ (s : State) (ra rb : Reg), s.status = .running → ra ≠ 7 → rb ≠ 7 → BytesAtPc [0x45, ra.byte, 0x46, rb.byte] s →
    s.sp - 1 ≠ s.pc + 2 → s.sp - 1 ≠ s.pc + 3 →
    ∃ t u, step s = .next t ∧ step t = .next u ∧ u.reg rb = s.reg ra ∧ u.sp = s.sp ∧ u.pc = s.pc + 4 ∧
      (∀ q : Reg, q ≠ rb → u.reg q = s.reg q) ∧ SameMemBut (s.sp - 1) s u

/-- R152's worked example: a RET in any state that has `sp` and the stack slot as the CALL left them goes to the address
after the two-byte CALL and restores `sp`. -/
def Obligations.RetReturnsAfterCall : Prop :=
  ∀ (ra : Reg) (s t u : State), exec (.call ra.byte) s = .next t → u.sp = t.sp → u.memRead u.sp = t.memRead t.sp →
    ∃ v, exec .ret u = .next v ∧ v.pc = s.pc + 2 ∧ v.sp = s.sp

/-- R154, R155, R197: in any later state with the flags a CMP left, JEQ branches exactly when the two values were equal
at the time of the CMP, and JNE exactly when they were not, whatever the registers hold since. -/
def Obligations.BranchesFollowComparedValues : Prop :=
  ∀ (ra rb rc : Reg) (s t u : State), exec (.cmp ra.byte rb.byte) s = .next t → u.fl = t.fl →
    exec (.jeq rc.byte) u = .next { u with pc := if s.reg ra = s.reg rb then u.reg rc else u.pc + 2 } ∧
    exec (.jne rc.byte) u = .next { u with pc := if s.reg ra = s.reg rb then u.pc + 2 else u.reg rc }

/-- R64, R66: a byte that PUSH stores just after itself is the next opcode fetched, whatever stood there before. PUSH of
any register, R7 too (whose stored byte is the decremented `sp`: D9, log entry 17), with the slot at the address after
PUSH's two bytes: the stored byte is the byte at the new `pc`, and the next step runs the instruction that this byte and
the two bytes after it decode to, or raises the error the decoder answers for them, at that address with that byte
(R211, R214; D2, log entry 14; D10 and D11, log entry 18). The opcode values are D1 (log entry 1), the wrap of addresses
D4 (log entry 12). -/
def Obligations.PushedByteIsNextOpcode : Prop :=
  ∀ (s : State) (ra : Reg) (v : Byte), s.status = .running → BytesAtPc [0x45, ra.byte] s → s.sp - 1 = s.pc + 2 →
    v = (if ra = 7 then s.sp - 1 else s.reg ra) →
    ∃ t, step s = .next t ∧ t.pc = s.pc + 2 ∧ t.memRead t.pc = v ∧
      (∀ i, decode v (s.memRead (s.pc + 3)) (s.memRead (s.pc + 4)) = .instr i → step t = exec i t) ∧
      (decode v (s.memRead (s.pc + 3)) (s.memRead (s.pc + 4)) = .unknownOpcode →
        step t = .next { t with status := .errored, fault := some ⟨.unknownOpcode, t.pc, v⟩ }) ∧
      (decode v (s.memRead (s.pc + 3)) (s.memRead (s.pc + 4)) = .invalidRegister →
        step t = .next { t with status := .errored, fault := some ⟨.invalidRegister, t.pc, v⟩ })
end

