-- ==== Sys2Proof/Laws/Boundary.lean ====
section
/-!
SUPPORT. The small lemmas of what passes between core and host: the codes of R210 and R224, what a run delivers (R122),
and the image of a reset (R240, R241).
-/

namespace Sys2Proof.Machine

@[simp] theorem Status.code_running : Status.running.code = 0 := rfl
@[simp] theorem Status.code_halted : Status.halted.code = 1 := rfl
@[simp] theorem Status.code_errored : Status.errored.code = 2 := rfl

@[simp] theorem Cause.code_unknownOpcode : Cause.unknownOpcode.code = 1 := rfl
@[simp] theorem Cause.code_unsupportedALUOperation : Cause.unsupportedALUOperation.code = 2 := rfl
@[simp] theorem Cause.code_divisionByZero : Cause.divisionByZero.code = 3 := rfl
@[simp] theorem Cause.code_memoryOutOfRange : Cause.memoryOutOfRange.code = 4 := rfl
@[simp] theorem Cause.code_invalidRegister : Cause.invalidRegister.code = 5 := rfl

/-- No cause shares the code of an absent record. -/
@[simp] theorem Cause.code_ne_zero (c : Cause) : c.code ≠ 0 := by cases c <;> decide

@[simp] theorem faultCode_none : faultCode none = 0 := rfl
@[simp] theorem faultCode_some (r : FaultRecord) : faultCode (some r) = r.cause.code := rfl

theorem State.delivers_eq (s : State) :
    s.delivers = (s.out, s.status.code, faultCode s.fault, s.fault.map fun r => (r.pc, r.op)) := rfl

/-- A program that fits has an image: the reset state with only memory changed. -/
theorem State.load_of_le {program : List Byte} (h : program.length ≤ Config.memSize) :
    State.load program = some { State.reset with mem := Memory.ofBytes Config.loadBase program } := if_pos h

/-- A program that does not fit has none. -/
theorem State.load_of_lt {program : List Byte} (h : Config.memSize < program.length) : State.load program = none :=
  if_neg (Nat.not_le.mpr h)

end Sys2Proof.Machine
end

