-- ==== Sys2Proof/Laws/Decode.lean ====
section
/-!
SUPPORT. The small lemmas of the decoder and the encoder: the register operand byte (30_encoding.md R83), the opcode
table's lookup (R85, R113), and what each answer of the decoder says.
-/

namespace Sys2Proof

theorem Reg.byte_toNat (r : Reg) : r.byte.toNat = r.val := by
  have := r.isLt
  simp [Reg.byte]; omega

@[simp] theorem regIndex?_byte (r : Reg) : regIndex? r.byte = some r := by
  have := r.isLt
  simp [regIndex?, Reg.byte_toNat]

/-- The byte that names a register is that register's byte: nothing is masked (R83). -/
theorem regIndex?_eq_some {b : Byte} {r : Reg} : regIndex? b = some r ↔ b = r.byte := by
  constructor
  · intro h
    unfold regIndex? at h
    split at h
    · have h' := Option.some.inj h
      subst h'
      apply BitVec.eq_of_toNat_eq
      rw [Reg.byte_toNat]
    · cases h
  · rintro rfl; simp

theorem regIndex?_eq_none {b : Byte} : regIndex? b = none ↔ regByteOk b = false := by
  simp [regIndex?, regByteOk]

@[simp] theorem regByteOk_byte (r : Reg) : regByteOk r.byte = true := by
  have := r.isLt
  simp [regByteOk, Reg.byte_toNat]

/-- A register operand byte that passes the check is some register's byte. -/
theorem regByteOk_iff {b : Byte} : regByteOk b = true ↔ ∃ r : Reg, b = r.byte := by
  constructor
  · intro h
    have h' : b.toNat < 8 := by simpa [regByteOk] using h
    exact ⟨⟨b.toNat, h'⟩, BitVec.eq_of_toNat_eq (by rw [Reg.byte_toNat])⟩
  · rintro ⟨r, rfl⟩; simp

theorem Mnemonic.mem_all (m : Mnemonic) : m ∈ Mnemonic.all := by cases m <;> decide

/-- A row found for an opcode byte has that opcode. -/
theorem lookupWith_some {opc : Mnemonic → Byte} {op : Byte} {m : Mnemonic} (h : lookupWith opc op = some m) :
    opc m = op := by
  simpa using List.find?_some h

/-- No row is found exactly when no mnemonic has the opcode (R87). -/
theorem lookupWith_none {opc : Mnemonic → Byte} {op : Byte} : lookupWith opc op = none ↔ ∀ m, opc m ≠ op := by
  simp [lookupWith, List.find?_eq_none, Mnemonic.mem_all]

/-- Under an injective OPC the row of a mnemonic's opcode is that mnemonic's. -/
theorem lookupWith_opc {opc : Mnemonic → Byte} (hopc : Function.Injective opc) (m : Mnemonic) :
    lookupWith opc (opc m) = some m := by
  cases h : lookupWith opc (opc m) with
  | none => exact absurd rfl (lookupWith_none.mp h m)
  | some m' => rw [hopc (lookupWith_some h)]

/-- The default table holds each mnemonic's row. -/
@[simp] theorem lookup_defaultOpc (m : Mnemonic) : lookup (defaultOpc m) = some m := by cases m <;> decide

/-- The default OPC is injective, as R85 requires of any. -/
theorem defaultOpc_injective : Function.Injective defaultOpc := by
  intro m m' h
  have h' := lookup_defaultOpc m
  rw [h, lookup_defaultOpc] at h'
  exact (Option.some.inj h').symm

/-- What each answer of the decoder says. -/
theorem decodeWith_instr {opc : Mnemonic → Byte} {op a b : Byte} {i : Instr} (h : decodeWith opc op a b = .instr i) :
    ∃ m, lookupWith opc op = some m ∧ i = m.build a b ∧ (m.checksA = true → regByteOk a = true) ∧
      (m.checksB = true → regByteOk b = true) := by
  have hok (b : Byte) : (regIndex? b).isNone = false ↔ regByteOk b = true := by
    cases hb : regIndex? b with
    | none => simp [regIndex?_eq_none.mp hb]
    | some r => simp [regIndex?_eq_some.mp hb]
  unfold decodeWith at h
  cases hm : lookupWith opc op with
  | none => simp [hm] at h
  | some m =>
    simp only [hm] at h
    refine ⟨m, rfl, ?_⟩
    split at h
    · cases h
    · rename_i ha
      split at h
      · cases h
      · rename_i hb
        cases h
        refine ⟨rfl, fun c => (hok a).mp ?_, fun c => (hok b).mp ?_⟩
        · simpa only [c, Bool.true_and, Bool.not_eq_true] using ha
        · simpa only [c, Bool.true_and, Bool.not_eq_true] using hb

theorem decodeWith_unknownOpcode {opc : Mnemonic → Byte} {op a b : Byte} :
    decodeWith opc op a b = .unknownOpcode ↔ ∀ m, opc m ≠ op := by
  rw [← lookupWith_none]
  unfold decodeWith
  cases hm : lookupWith opc op with
  | none => simp
  | some m => simp only [reduceCtorEq, iff_false]; split_ifs <;> simp

theorem Mnemonic.build_mnemonic (m : Mnemonic) (a b : Byte) : (m.build a b).mnemonic = m := by cases m <;> rfl

theorem Mnemonic.checksA_iff {m : Mnemonic} : m.checksA = true ↔ 1 ≤ m.operandCount := by cases m <;> decide

theorem Mnemonic.operandCount_le {m : Mnemonic} : m.operandCount = 0 ∨ m.operandCount = 1 ∨ m.operandCount = 2 := by
  cases m <;> decide

/-- The decoder does not use an operand byte that the opcode's row does not declare (R81, R82). -/
theorem decode_unread {op a a' b b' : Byte} {m : Mnemonic} (hm : lookup op = some m)
    (ha : 1 ≤ m.operandCount → a = a') (hb : m.operandCount = 2 → b = b') : decode op a b = decode op a' b' := by
  unfold lookup at hm
  unfold decode decodeWith
  rw [hm]
  cases m <;> first
    | rfl
    | (obtain rfl := ha (by decide); rfl)
    | (obtain rfl := ha (by decide); obtain rfl := hb (by decide); rfl)

end Sys2Proof
end

