-- ==== Sys2Proof/Laws/Memory.lean ====
section
/-!
SUPPORT. The laws of memory: a read after a write (20_memory.md R51), and that every operation keeps the canonical form,
in which two memories that read the same everywhere are the same list.
-/

namespace Sys2Proof.Machine

@[simp] theorem Memory.read_nil (a : Nat) : Memory.read [] a = Config.memFill := rfl

@[simp] theorem Memory.read_cons (k : Nat) (b : Byte) (rest : Memory) (a : Nat) :
    Memory.read ((k, b) :: rest) a = if k = a then b else Memory.read rest a := rfl

/-- Reading an address from which the entry was taken gives the fill byte; every other address reads as before. -/
theorem Memory.read_erase (m : Memory) (a p : Nat) :
    (m.erase a).read p = if p = a then Config.memFill else m.read p := by
  induction m with
  | nil => simp [Memory.erase]
  | cons c rest ih =>
    obtain ⟨k, b⟩ := c
    by_cases h : k = a
    · subst h
      by_cases hp : p = k
      · subst hp; simpa [Memory.erase] using ih
      · simp [Memory.erase, ih, hp, Ne.symm hp]
    · by_cases hk : k = p
      · subst hk; simp [Memory.erase, h]
      · simp [Memory.erase, h, hk, ih]

/-- Inserting an entry leaves every other address as it was. -/
theorem Memory.read_insert (m : Memory) (a : Nat) (v : Byte) (p : Nat) (h : p ≠ a) :
    (m.insert a v).read p = m.read p := by
  induction m with
  | nil => simp [Memory.insert, Ne.symm h]
  | cons c rest ih =>
    obtain ⟨k, b⟩ := c
    by_cases hk : a < k
    · simp [Memory.insert, hk, Ne.symm h]
    · simp [Memory.insert, hk, ih]

/-- An entry inserted where none stood for its address is what the address reads as. -/
theorem Memory.read_insert_erase_same (m : Memory) (a : Nat) (v : Byte) :
    ((m.erase a).insert a v).read a = v := by
  induction m with
  | nil => simp [Memory.erase, Memory.insert]
  | cons c rest ih =>
    obtain ⟨k, b⟩ := c
    by_cases h : k = a
    · simpa [Memory.erase, h] using ih
    · by_cases hk : a < k
      · simp [Memory.erase, h, Memory.insert, hk]
      · simpa [Memory.erase, h, Memory.insert, hk] using ih

/-- Everything a write does, for every list: the written address reads as the written byte, every other as before. -/
theorem Memory.read_write (m : Memory) (a : Nat) (v : Byte) (p : Nat) :
    (m.write a v).read p = if p = a then v else m.read p := by
  by_cases hv : v = Config.memFill
  · simp [Memory.write, hv, Memory.read_erase]
  · by_cases h : p = a
    · subst h; simp [Memory.write, hv, Memory.read_insert_erase_same]
    · simp [Memory.write, hv, h, Memory.read_insert, Memory.read_erase]

theorem Memory.wfFrom_cons (lo k : Nat) (b : Byte) (rest : Memory) :
    Memory.wfFrom lo ((k, b) :: rest) = true ↔
      lo ≤ k ∧ k < Config.memSize ∧ b ≠ Config.memFill ∧ Memory.wfFrom (k + 1) rest = true := by
  simp [Memory.wfFrom, and_assoc]

theorem Memory.wfFrom_mono {lo lo' : Nat} (h : lo' ≤ lo) {m : Memory} (hm : m.wfFrom lo = true) :
    m.wfFrom lo' = true := by
  cases m with
  | nil => rfl
  | cons c rest =>
    obtain ⟨k, b⟩ := c
    rw [Memory.wfFrom_cons] at hm ⊢
    exact ⟨h.trans hm.1, hm.2⟩

/-- In canonical form nothing is listed below the bound. -/
theorem Memory.read_below {lo a : Nat} (h : a < lo) {m : Memory} (hm : m.wfFrom lo = true) :
    m.read a = Config.memFill := by
  induction m generalizing lo with
  | nil => rfl
  | cons c rest ih =>
    obtain ⟨k, b⟩ := c
    rw [Memory.wfFrom_cons] at hm
    have hk : k ≠ a := by omega
    simp only [Memory.read_cons, hk, if_false]
    exact ih (by omega) hm.2.2.2

theorem Memory.erase_wfFrom {lo a : Nat} {m : Memory} (hm : m.wfFrom lo = true) : (m.erase a).wfFrom lo = true := by
  induction m generalizing lo with
  | nil => rfl
  | cons c rest ih =>
    obtain ⟨k, b⟩ := c
    rw [Memory.wfFrom_cons] at hm
    by_cases h : k = a
    · simpa [Memory.erase, h] using ih (Memory.wfFrom_mono (by omega) hm.2.2.2)
    · simp only [Memory.erase, h, if_false]
      rw [Memory.wfFrom_cons]
      exact ⟨hm.1, hm.2.1, hm.2.2.1, ih hm.2.2.2⟩

theorem Memory.insert_erase_wfFrom {lo a : Nat} {v : Byte} (hv : v ≠ Config.memFill) (ha : a < Config.memSize)
    (hlo : lo ≤ a) {m : Memory} (hm : m.wfFrom lo = true) : ((m.erase a).insert a v).wfFrom lo = true := by
  induction m generalizing lo with
  | nil => simp [Memory.erase, Memory.insert, Memory.wfFrom, hv, ha, hlo]
  | cons c rest ih =>
    obtain ⟨k, b⟩ := c
    rw [Memory.wfFrom_cons] at hm
    by_cases h : k = a
    · simpa [Memory.erase, h] using ih hlo (Memory.wfFrom_mono (by omega) hm.2.2.2)
    · by_cases hk : a < k
      · simp only [Memory.erase, h, if_false, Memory.insert, hk, if_true]
        rw [Memory.wfFrom_cons, Memory.wfFrom_cons]
        exact ⟨hlo, ha, hv, by omega, hm.2.1, hm.2.2.1, Memory.erase_wfFrom hm.2.2.2⟩
      · simp only [Memory.erase, h, if_false, Memory.insert, hk]
        rw [Memory.wfFrom_cons]
        exact ⟨hm.1, hm.2.1, hm.2.2.1, ih (by omega) hm.2.2.2⟩

/-- A write inside memory keeps the canonical form. -/
theorem Memory.write_wf {m : Memory} {a : Nat} {v : Byte} (hm : m.wf = true) (ha : a < Config.memSize) :
    (m.write a v).wf = true := by
  by_cases hv : v = Config.memFill
  · simpa [Memory.write, Memory.wf, hv] using Memory.erase_wfFrom (a := a) hm
  · simpa [Memory.write, Memory.wf, hv] using Memory.insert_erase_wfFrom hv ha (Nat.zero_le a) hm

theorem Memory.ofBytes_wfFrom (bytes : List Byte) {lo base : Nat} (hlo : lo ≤ base)
    (h : base + bytes.length ≤ Config.memSize) : (Memory.ofBytes base bytes).wfFrom lo = true := by
  induction bytes generalizing lo base with
  | nil => rfl
  | cons b rest ih =>
    rw [List.length_cons] at h
    by_cases hb : b = Config.memFill
    · simpa [Memory.ofBytes, hb] using ih (lo := lo) (base := base + 1) (by omega) (by omega)
    · simp only [Memory.ofBytes, hb, if_false]
      rw [Memory.wfFrom_cons]
      exact ⟨hlo, by omega, hb, ih (Nat.le_refl _) (by omega)⟩

/-- An image of at most 256 bytes is in canonical form. -/
theorem Memory.ofBytes_wf {bytes : List Byte} (h : bytes.length ≤ Config.memSize) :
    (Memory.ofBytes Config.loadBase bytes).wf = true :=
  Memory.ofBytes_wfFrom bytes (Nat.le_refl _) (by simpa [Config.loadBase] using h)

/-- What an image reads as: byte `i` at `base + i`, the fill byte elsewhere. -/
theorem Memory.read_ofBytes (bytes : List Byte) (base p : Nat) :
    (Memory.ofBytes base bytes).read p = if base ≤ p then (bytes[p - base]?).getD Config.memFill else Config.memFill := by
  induction bytes generalizing base with
  | nil => simp [Memory.ofBytes]
  | cons b rest ih =>
    have step (h1 : base + 1 ≤ p) : (b :: rest)[p - base]? = rest[p - (base + 1)]? := by
      rw [show p - base = (p - (base + 1)) + 1 by omega, List.getElem?_cons_succ]
    by_cases hp : base = p
    · subst hp
      by_cases hb : b = Config.memFill <;> simp [Memory.ofBytes, hb, ih]
    · by_cases h1 : base + 1 ≤ p
      · have h2 : base ≤ p := by omega
        by_cases hb : b = Config.memFill <;> simp [Memory.ofBytes, hb, ih, hp, h1, h2, step h1]
        rw [← hb, step h1]
      · have h2 : ¬ base ≤ p := by omega
        by_cases hb : b = Config.memFill <;> simp [Memory.ofBytes, hb, ih, hp, h1, h2]

theorem Memory.ext_wfFrom {lo : Nat} {m m' : Memory} (hm : m.wfFrom lo = true) (hm' : m'.wfFrom lo = true)
    (h : ∀ a, m.read a = m'.read a) : m = m' := by
  induction m generalizing lo m' with
  | nil =>
    cases m' with
    | nil => rfl
    | cons c rest =>
      obtain ⟨k, b⟩ := c
      rw [Memory.wfFrom_cons] at hm'
      exact absurd (by simpa using (h k).symm) hm'.2.2.1
  | cons c rest ih =>
    obtain ⟨k, b⟩ := c
    have hk := hm
    rw [Memory.wfFrom_cons] at hk
    cases m' with
    | nil => exact absurd (by simpa using h k) hk.2.2.1
    | cons c' rest' =>
      obtain ⟨k', b'⟩ := c'
      have hk' := hm'
      rw [Memory.wfFrom_cons] at hk'
      have heq : k = k' := by
        rcases Nat.lt_trichotomy k k' with hlt | heq | hgt
        · have := h k
          rw [Memory.read_cons, Memory.read_cons, if_pos rfl, if_neg (by omega),
            Memory.read_below (by omega) hk'.2.2.2] at this
          exact absurd this hk.2.2.1
        · exact heq
        · have := h k'
          rw [Memory.read_cons, Memory.read_cons, if_pos rfl, if_neg (by omega),
            Memory.read_below (by omega) hk.2.2.2] at this
          exact absurd this.symm hk'.2.2.1
      subst heq
      have hb : b = b' := by simpa using h k
      subst hb
      rw [ih hk.2.2.2 hk'.2.2.2 fun a => ?_]
      by_cases ha : k = a
      · subst ha
        rw [Memory.read_below (Nat.lt_succ_self k) hk.2.2.2, Memory.read_below (Nat.lt_succ_self k) hk'.2.2.2]
      · simpa [ha] using h a

/-- Canonical memories that read the same are the same data. -/
theorem Memory.ext_wf {m m' : Memory} (hm : m.wf = true) (hm' : m'.wf = true) (h : ∀ a, m.read a = m'.read a) : m = m' :=
  Memory.ext_wfFrom hm hm' h

/-- Memory at reset is in canonical form. -/
theorem State.reset_mem_wf : State.reset.mem.wf = true := rfl

end Sys2Proof.Machine
end

