-- ==== Sys2Proof/Laws/State.lean ====
section
/-!
SUPPORT. What each named update of the state does to each field: one lemma per field per update, by rfl. The registers
are read through `State.reg` and memory through `State.memRead`.
-/

namespace Sys2Proof.Machine

/-! `setReg` -/

@[simp] theorem State.setReg_pc (s : State) (r : Reg) (v : Byte) : (s.setReg r v).pc = s.pc := rfl
@[simp] theorem State.setReg_fl (s : State) (r : Reg) (v : Byte) : (s.setReg r v).fl = s.fl := rfl
@[simp] theorem State.setReg_mem (s : State) (r : Reg) (v : Byte) : (s.setReg r v).mem = s.mem := rfl
@[simp] theorem State.setReg_status (s : State) (r : Reg) (v : Byte) : (s.setReg r v).status = s.status := rfl
@[simp] theorem State.setReg_fault (s : State) (r : Reg) (v : Byte) : (s.setReg r v).fault = s.fault := rfl
@[simp] theorem State.setReg_out (s : State) (r : Reg) (v : Byte) : (s.setReg r v).out = s.out := rfl
@[simp] theorem State.setReg_memRead (s : State) (r : Reg) (v : Byte) (p : Byte) : (s.setReg r v).memRead p = s.memRead p := rfl

/-! `setSp` -/

@[simp] theorem State.setSp_pc (s : State) (v : Byte) : (s.setSp v).pc = s.pc := rfl
@[simp] theorem State.setSp_fl (s : State) (v : Byte) : (s.setSp v).fl = s.fl := rfl
@[simp] theorem State.setSp_mem (s : State) (v : Byte) : (s.setSp v).mem = s.mem := rfl
@[simp] theorem State.setSp_status (s : State) (v : Byte) : (s.setSp v).status = s.status := rfl
@[simp] theorem State.setSp_fault (s : State) (v : Byte) : (s.setSp v).fault = s.fault := rfl
@[simp] theorem State.setSp_out (s : State) (v : Byte) : (s.setSp v).out = s.out := rfl
@[simp] theorem State.setSp_memRead (s : State) (v : Byte) (p : Byte) : (s.setSp v).memRead p = s.memRead p := rfl

/-! `setPc` -/

@[simp] theorem State.setPc_pc (s : State) (t : Byte) : (s.setPc t).pc = t := rfl
@[simp] theorem State.setPc_fl (s : State) (t : Byte) : (s.setPc t).fl = s.fl := rfl
@[simp] theorem State.setPc_mem (s : State) (t : Byte) : (s.setPc t).mem = s.mem := rfl
@[simp] theorem State.setPc_status (s : State) (t : Byte) : (s.setPc t).status = s.status := rfl
@[simp] theorem State.setPc_fault (s : State) (t : Byte) : (s.setPc t).fault = s.fault := rfl
@[simp] theorem State.setPc_out (s : State) (t : Byte) : (s.setPc t).out = s.out := rfl
@[simp] theorem State.setPc_reg (s : State) (t : Byte) (q : Reg) : (s.setPc t).reg q = s.reg q := rfl
@[simp] theorem State.setPc_sp (s : State) (t : Byte) : (s.setPc t).sp = s.sp := rfl
@[simp] theorem State.setPc_memRead (s : State) (t : Byte) (p : Byte) : (s.setPc t).memRead p = s.memRead p := rfl

/-! `advance` -/

@[simp] theorem State.advance_pc (s : State) (n : Nat) : (s.advance n).pc = s.pc + BitVec.ofNat 8 n := rfl
@[simp] theorem State.advance_fl (s : State) (n : Nat) : (s.advance n).fl = s.fl := rfl
@[simp] theorem State.advance_mem (s : State) (n : Nat) : (s.advance n).mem = s.mem := rfl
@[simp] theorem State.advance_status (s : State) (n : Nat) : (s.advance n).status = s.status := rfl
@[simp] theorem State.advance_fault (s : State) (n : Nat) : (s.advance n).fault = s.fault := rfl
@[simp] theorem State.advance_out (s : State) (n : Nat) : (s.advance n).out = s.out := rfl
@[simp] theorem State.advance_reg (s : State) (n : Nat) (q : Reg) : (s.advance n).reg q = s.reg q := rfl
@[simp] theorem State.advance_sp (s : State) (n : Nat) : (s.advance n).sp = s.sp := rfl
@[simp] theorem State.advance_memRead (s : State) (n : Nat) (p : Byte) : (s.advance n).memRead p = s.memRead p := rfl

/-! `memWrite` -/

@[simp] theorem State.memWrite_pc (s : State) (a v : Byte) : (s.memWrite a v).pc = s.pc := rfl
@[simp] theorem State.memWrite_fl (s : State) (a v : Byte) : (s.memWrite a v).fl = s.fl := rfl
@[simp] theorem State.memWrite_mem (s : State) (a v : Byte) : (s.memWrite a v).mem = s.mem.write a.toNat v := rfl
@[simp] theorem State.memWrite_status (s : State) (a v : Byte) : (s.memWrite a v).status = s.status := rfl
@[simp] theorem State.memWrite_fault (s : State) (a v : Byte) : (s.memWrite a v).fault = s.fault := rfl
@[simp] theorem State.memWrite_out (s : State) (a v : Byte) : (s.memWrite a v).out = s.out := rfl
@[simp] theorem State.memWrite_reg (s : State) (a v : Byte) (q : Reg) : (s.memWrite a v).reg q = s.reg q := rfl
@[simp] theorem State.memWrite_sp (s : State) (a v : Byte) : (s.memWrite a v).sp = s.sp := rfl

/-! `setFlags` -/

@[simp] theorem State.setFlags_pc (s : State) (f : Flags) : (s.setFlags f).pc = s.pc := rfl
@[simp] theorem State.setFlags_fl (s : State) (f : Flags) : (s.setFlags f).fl = f := rfl
@[simp] theorem State.setFlags_mem (s : State) (f : Flags) : (s.setFlags f).mem = s.mem := rfl
@[simp] theorem State.setFlags_status (s : State) (f : Flags) : (s.setFlags f).status = s.status := rfl
@[simp] theorem State.setFlags_fault (s : State) (f : Flags) : (s.setFlags f).fault = s.fault := rfl
@[simp] theorem State.setFlags_out (s : State) (f : Flags) : (s.setFlags f).out = s.out := rfl
@[simp] theorem State.setFlags_reg (s : State) (f : Flags) (q : Reg) : (s.setFlags f).reg q = s.reg q := rfl
@[simp] theorem State.setFlags_sp (s : State) (f : Flags) : (s.setFlags f).sp = s.sp := rfl
@[simp] theorem State.setFlags_memRead (s : State) (f : Flags) (p : Byte) : (s.setFlags f).memRead p = s.memRead p := rfl

/-! `emit` -/

@[simp] theorem State.emit_pc (s : State) (v : Byte) : (s.emit v).pc = s.pc := rfl
@[simp] theorem State.emit_fl (s : State) (v : Byte) : (s.emit v).fl = s.fl := rfl
@[simp] theorem State.emit_mem (s : State) (v : Byte) : (s.emit v).mem = s.mem := rfl
@[simp] theorem State.emit_status (s : State) (v : Byte) : (s.emit v).status = s.status := rfl
@[simp] theorem State.emit_fault (s : State) (v : Byte) : (s.emit v).fault = s.fault := rfl
@[simp] theorem State.emit_out (s : State) (v : Byte) : (s.emit v).out = s.out ++ [v] := rfl
@[simp] theorem State.emit_reg (s : State) (v : Byte) (q : Reg) : (s.emit v).reg q = s.reg q := rfl
@[simp] theorem State.emit_sp (s : State) (v : Byte) : (s.emit v).sp = s.sp := rfl
@[simp] theorem State.emit_memRead (s : State) (v : Byte) (p : Byte) : (s.emit v).memRead p = s.memRead p := rfl

/-! `halt` -/

@[simp] theorem State.halt_pc (s : State) : (s.halt).pc = s.pc := rfl
@[simp] theorem State.halt_fl (s : State) : (s.halt).fl = s.fl := rfl
@[simp] theorem State.halt_mem (s : State) : (s.halt).mem = s.mem := rfl
@[simp] theorem State.halt_status (s : State) : (s.halt).status = .halted := rfl
@[simp] theorem State.halt_fault (s : State) : (s.halt).fault = s.fault := rfl
@[simp] theorem State.halt_out (s : State) : (s.halt).out = s.out := rfl
@[simp] theorem State.halt_reg (s : State) (q : Reg) : (s.halt).reg q = s.reg q := rfl
@[simp] theorem State.halt_sp (s : State) : (s.halt).sp = s.sp := rfl
@[simp] theorem State.halt_memRead (s : State) (p : Byte) : (s.halt).memRead p = s.memRead p := rfl

/-! `raise` -/

@[simp] theorem State.raise_pc (s : State) (c : Cause) (op : Byte) : (s.raise c op).pc = s.pc := rfl
@[simp] theorem State.raise_fl (s : State) (c : Cause) (op : Byte) : (s.raise c op).fl = s.fl := rfl
@[simp] theorem State.raise_mem (s : State) (c : Cause) (op : Byte) : (s.raise c op).mem = s.mem := rfl
@[simp] theorem State.raise_status (s : State) (c : Cause) (op : Byte) : (s.raise c op).status = .errored := rfl
@[simp] theorem State.raise_fault (s : State) (c : Cause) (op : Byte) : (s.raise c op).fault = some { cause := c, pc := s.pc, op := op } := rfl
@[simp] theorem State.raise_out (s : State) (c : Cause) (op : Byte) : (s.raise c op).out = s.out := rfl
@[simp] theorem State.raise_reg (s : State) (c : Cause) (op : Byte) (q : Reg) : (s.raise c op).reg q = s.reg q := rfl
@[simp] theorem State.raise_sp (s : State) (c : Cause) (op : Byte) : (s.raise c op).sp = s.sp := rfl
@[simp] theorem State.raise_memRead (s : State) (c : Cause) (op : Byte) (p : Byte) : (s.raise c op).memRead p = s.memRead p := rfl

/-! The reads of what an update writes -/

/-- Everything a register write does to the registers (10_state.md R21, R22). -/
@[simp] theorem State.setReg_reg (s : State) (r : Reg) (v : Byte) (q : Reg) :
    (s.setReg r v).reg q = if q = r then v else s.reg q := by
  by_cases h : q = r
  · subst h; simp [State.setReg, State.reg]
  · have h' : r.val ≠ q.val := fun e => h (Fin.ext e.symm)
    simp [State.setReg, State.reg, h, h']

/-- The stack pointer is `x[7]` (R24). -/
theorem State.sp_eq (s : State) : s.sp = s.reg 7 := rfl

@[simp] theorem State.setSp_reg (s : State) (v : Byte) (q : Reg) :
    (s.setSp v).reg q = if q = 7 then v else s.reg q := State.setReg_reg s 7 v q

@[simp] theorem State.setSp_sp (s : State) (v : Byte) : (s.setSp v).sp = v := by simp [State.sp_eq]

theorem State.setReg_sp (s : State) (r : Reg) (v : Byte) : (s.setReg r v).sp = if r = 7 then v else s.sp := by
  simp only [State.sp_eq, State.setReg_reg, eq_comm]

/-- Everything a memory write does to memory (20_memory.md R51). -/
@[simp] theorem State.memWrite_memRead (s : State) (a v p : Byte) :
    (s.memWrite a v).memRead p = if p = a then v else s.memRead p := by
  simp [State.memRead, State.memWrite, Memory.read_write, BitVec.toNat_inj]

/-- A memory write keeps memory's canonical form. -/
theorem State.memWrite_wf {s : State} {a v : Byte} (h : s.mem.wf = true) : (s.memWrite a v).mem.wf = true :=
  Memory.write_wf h (by have := a.isLt; simpa [Config.memSize] using this)

/-- Two states with the same registers by reading, and the same other fields, are the same. -/
theorem State.ext_reads {s t : State} (hr : ∀ q, t.reg q = s.reg q) (hpc : t.pc = s.pc) (hf : t.fl = s.fl)
    (hm : t.mem = s.mem) (hs : t.status = s.status) (hft : t.fault = s.fault) (ho : t.out = s.out) : t = s := by
  have hregs : t.regs = s.regs := by
    apply Vector.ext
    intro i hi
    exact hr ⟨i, hi⟩
  cases s; cases t
  simp_all

end Sys2Proof.Machine
end

