-- ==== Sys2Proof/Laws/Operands.lean ====
section
/-!
SUPPORT. One lemma for each shared operand form that says everything it can do (10_state.md R23, 40_sequencer.md R115),
and what each form answers when its operands name registers.
-/

namespace Sys2Proof.Machine

@[simp] theorem withReg_byte (m : Mnemonic) (r : Reg) (s : State) (k : Reg → Result) :
    withReg m r.byte s k = k r := by simp [withReg]

theorem withReg_bad {m : Mnemonic} {a : Byte} {s : State} {k : Reg → Result} (h : regByteOk a = false) :
    withReg m a s k = .next (s.raise .invalidRegister (defaultOpc m)) := by
  simp [withReg, regIndex?_eq_none.mpr h]

/-- The operand names a register and the rest of the meaning runs, or the error is raised. -/
theorem withReg_cases {m : Mnemonic} {a : Byte} {s t : State} {k : Reg → Result} (h : withReg m a s k = .next t) :
    (∃ r : Reg, a = r.byte ∧ k r = .next t) ∨
      (regByteOk a = false ∧ t = s.raise .invalidRegister (defaultOpc m)) := by
  cases ha : regByteOk a with
  | true =>
    obtain ⟨r, rfl⟩ := regByteOk_iff.mp ha
    exact .inl ⟨r, rfl, by simpa using h⟩
  | false =>
    rw [withReg_bad ha] at h
    cases h
    exact .inr ⟨rfl, rfl⟩

@[simp] theorem withRegs_byte (m : Mnemonic) (ra rb : Reg) (s : State) (k : Reg → Reg → Result) :
    withRegs m ra.byte rb.byte s k = k ra rb := by simp [withRegs]

theorem withRegs_bad {m : Mnemonic} {a b : Byte} {s : State} {k : Reg → Reg → Result}
    (h : (regByteOk a && regByteOk b) = false) :
    withRegs m a b s k = .next (s.raise .invalidRegister (defaultOpc m)) := by
  unfold withRegs
  cases ha : regByteOk a with
  | false => exact withReg_bad ha
  | true =>
    obtain ⟨r, rfl⟩ := regByteOk_iff.mp ha
    rw [withReg_byte]
    exact withReg_bad (by simpa [ha] using h)

/-- Both operands name registers and the rest of the meaning runs, or the error is raised. -/
theorem withRegs_cases {m : Mnemonic} {a b : Byte} {s t : State} {k : Reg → Reg → Result}
    (h : withRegs m a b s k = .next t) :
    (∃ ra rb : Reg, a = ra.byte ∧ b = rb.byte ∧ k ra rb = .next t) ∨
      ((regByteOk a && regByteOk b) = false ∧ t = s.raise .invalidRegister (defaultOpc m)) := by
  cases hab : (regByteOk a && regByteOk b) with
  | true =>
    obtain ⟨⟨ra, rfl⟩, ⟨rb, rfl⟩⟩ := (Bool.and_eq_true _ _ ▸ hab : _ ∧ _).imp regByteOk_iff.mp regByteOk_iff.mp
    exact .inl ⟨ra, rb, rfl, rfl, by simpa using h⟩
  | false =>
    rw [withRegs_bad hab] at h
    cases h
    exact .inr ⟨rfl, rfl⟩

@[simp] theorem aluBinary_byte (m : Mnemonic) (f : Byte → Byte → Byte) (ra rb : Reg) (s : State) :
    aluBinary m f ra.byte rb.byte s = .next ((s.setReg ra (f (s.reg ra) (s.reg rb))).advance 3) := by
  simp [aluBinary]

/-- Everything `aluBinary` can do. -/
theorem aluBinary_cases {m : Mnemonic} {f : Byte → Byte → Byte} {a b : Byte} {s t : State}
    (h : aluBinary m f a b s = .next t) :
    (∃ ra rb : Reg, a = ra.byte ∧ b = rb.byte ∧ t = (s.setReg ra (f (s.reg ra) (s.reg rb))).advance 3) ∨
      ((regByteOk a && regByteOk b) = false ∧ t = s.raise .invalidRegister (defaultOpc m)) := by
  rcases withRegs_cases h with ⟨ra, rb, rfl, rfl, hk⟩ | hbad
  · cases hk; exact .inl ⟨ra, rb, rfl, rfl, rfl⟩
  · exact .inr hbad

@[simp] theorem aluMove_byte (m : Mnemonic) (f : Byte → Byte) (ra rb : Reg) (s : State) :
    aluMove m f ra.byte rb.byte s = .next ((s.setReg ra (f (s.reg rb))).advance 3) := by
  simp [aluMove]

/-- Everything `aluMove` can do. -/
theorem aluMove_cases {m : Mnemonic} {f : Byte → Byte} {a b : Byte} {s t : State} (h : aluMove m f a b s = .next t) :
    (∃ ra rb : Reg, a = ra.byte ∧ b = rb.byte ∧ t = (s.setReg ra (f (s.reg rb))).advance 3) ∨
      ((regByteOk a && regByteOk b) = false ∧ t = s.raise .invalidRegister (defaultOpc m)) := by
  rcases withRegs_cases h with ⟨ra, rb, rfl, rfl, hk⟩ | hbad
  · cases hk; exact .inl ⟨ra, rb, rfl, rfl, rfl⟩
  · exact .inr hbad

@[simp] theorem aluDivide_byte (m : Mnemonic) (f : Byte → Byte → Byte) (ra rb : Reg) (s : State) :
    aluDivide m f ra.byte rb.byte s =
      if s.reg rb = 0 then .next (s.raise .divisionByZero (defaultOpc m))
      else .next ((s.setReg ra (f (s.reg ra) (s.reg rb))).advance 3) := by
  simp [aluDivide]

/-- Everything `aluDivide` can do. -/
theorem aluDivide_cases {m : Mnemonic} {f : Byte → Byte → Byte} {a b : Byte} {s t : State}
    (h : aluDivide m f a b s = .next t) :
    (∃ ra rb : Reg, a = ra.byte ∧ b = rb.byte ∧ s.reg rb ≠ 0 ∧
        t = (s.setReg ra (f (s.reg ra) (s.reg rb))).advance 3) ∨
      (∃ ra rb : Reg, a = ra.byte ∧ b = rb.byte ∧ s.reg rb = 0 ∧ t = s.raise .divisionByZero (defaultOpc m)) ∨
      ((regByteOk a && regByteOk b) = false ∧ t = s.raise .invalidRegister (defaultOpc m)) := by
  rcases withRegs_cases h with ⟨ra, rb, rfl, rfl, hk⟩ | hbad
  · by_cases h0 : s.reg rb = 0
    · rw [if_pos h0] at hk; cases hk; exact .inr (.inl ⟨ra, rb, rfl, rfl, h0, rfl⟩)
    · rw [if_neg h0] at hk; cases hk; exact .inl ⟨ra, rb, rfl, rfl, h0, rfl⟩
  · exact .inr (.inr hbad)

end Sys2Proof.Machine
end

