-- ==== Sys2Proof/Laws/PerInstr.lean ====
section
/-!
SUPPORT. The statements made instruction by instruction (LAWS.json, per_instruction), each about the instruction as
syntax: the length of its encoding (30_encoding.md R82) and which of its operand bytes are checked (R83, R88, R115).
-/

namespace Sys2Proof.Laws

/-- The encoding of the instruction is as long as the opcode table says: its operand count plus one (R82). -/
def EncodedLength.Statement (i : Instr) : Prop := (encode i).length = i.mnemonic.operandCount + 1

/-- The instruction is well formed exactly when each of its operand bytes that the table declares a register operand is
in [0,7] (R83, R115). -/
def OperandCheck.Statement (i : Instr) : Prop :=
  i.wellFormed = true ↔
    (i.mnemonic.checksA = true → ∀ a, i.operands[0]? = some a → regByteOk a = true) ∧
      (i.mnemonic.checksB = true → ∀ b, i.operands[1]? = some b → regByteOk b = true)

theorem EncodedLength.hlt : EncodedLength.Statement .hlt := rfl

theorem EncodedLength.ret : EncodedLength.Statement .ret := rfl

theorem EncodedLength.push (a : Byte) : EncodedLength.Statement (.push a) := rfl

theorem EncodedLength.pop (a : Byte) : EncodedLength.Statement (.pop a) := rfl

theorem EncodedLength.prn (a : Byte) : EncodedLength.Statement (.prn a) := rfl

theorem EncodedLength.call (a : Byte) : EncodedLength.Statement (.call a) := rfl

theorem EncodedLength.jmp (a : Byte) : EncodedLength.Statement (.jmp a) := rfl

theorem EncodedLength.jeq (a : Byte) : EncodedLength.Statement (.jeq a) := rfl

theorem EncodedLength.jne (a : Byte) : EncodedLength.Statement (.jne a) := rfl

theorem EncodedLength.ldi (a b : Byte) : EncodedLength.Statement (.ldi a b) := rfl

theorem EncodedLength.add (a b : Byte) : EncodedLength.Statement (.add a b) := rfl

theorem EncodedLength.sub (a b : Byte) : EncodedLength.Statement (.sub a b) := rfl

theorem EncodedLength.mul (a b : Byte) : EncodedLength.Statement (.mul a b) := rfl

theorem EncodedLength.div (a b : Byte) : EncodedLength.Statement (.div a b) := rfl

theorem EncodedLength.mod (a b : Byte) : EncodedLength.Statement (.mod a b) := rfl

theorem EncodedLength.inc (a b : Byte) : EncodedLength.Statement (.inc a b) := rfl

theorem EncodedLength.dec (a b : Byte) : EncodedLength.Statement (.dec a b) := rfl

theorem EncodedLength.cmp (a b : Byte) : EncodedLength.Statement (.cmp a b) := rfl

theorem EncodedLength.and (a b : Byte) : EncodedLength.Statement (.and a b) := rfl

theorem EncodedLength.not (a b : Byte) : EncodedLength.Statement (.not a b) := rfl

theorem EncodedLength.or (a b : Byte) : EncodedLength.Statement (.or a b) := rfl

theorem EncodedLength.xor (a b : Byte) : EncodedLength.Statement (.xor a b) := rfl

theorem EncodedLength.shl (a b : Byte) : EncodedLength.Statement (.shl a b) := rfl

theorem EncodedLength.shr (a b : Byte) : EncodedLength.Statement (.shr a b) := rfl

theorem OperandCheck.hlt : OperandCheck.Statement .hlt := by
  simp [OperandCheck.Statement, Instr.wellFormed, Instr.operands, Instr.mnemonic, Mnemonic.checksA, Mnemonic.checksB,
    Mnemonic.format]

theorem OperandCheck.ret : OperandCheck.Statement .ret := by
  simp [OperandCheck.Statement, Instr.wellFormed, Instr.operands, Instr.mnemonic, Mnemonic.checksA, Mnemonic.checksB,
    Mnemonic.format]

theorem OperandCheck.push (a : Byte) : OperandCheck.Statement (.push a) := by
  simp [OperandCheck.Statement, Instr.wellFormed, Instr.operands, Instr.mnemonic, Mnemonic.checksA, Mnemonic.checksB,
    Mnemonic.format]

theorem OperandCheck.pop (a : Byte) : OperandCheck.Statement (.pop a) := by
  simp [OperandCheck.Statement, Instr.wellFormed, Instr.operands, Instr.mnemonic, Mnemonic.checksA, Mnemonic.checksB,
    Mnemonic.format]

theorem OperandCheck.prn (a : Byte) : OperandCheck.Statement (.prn a) := by
  simp [OperandCheck.Statement, Instr.wellFormed, Instr.operands, Instr.mnemonic, Mnemonic.checksA, Mnemonic.checksB,
    Mnemonic.format]

theorem OperandCheck.call (a : Byte) : OperandCheck.Statement (.call a) := by
  simp [OperandCheck.Statement, Instr.wellFormed, Instr.operands, Instr.mnemonic, Mnemonic.checksA, Mnemonic.checksB,
    Mnemonic.format]

theorem OperandCheck.jmp (a : Byte) : OperandCheck.Statement (.jmp a) := by
  simp [OperandCheck.Statement, Instr.wellFormed, Instr.operands, Instr.mnemonic, Mnemonic.checksA, Mnemonic.checksB,
    Mnemonic.format]

theorem OperandCheck.jeq (a : Byte) : OperandCheck.Statement (.jeq a) := by
  simp [OperandCheck.Statement, Instr.wellFormed, Instr.operands, Instr.mnemonic, Mnemonic.checksA, Mnemonic.checksB,
    Mnemonic.format]

theorem OperandCheck.jne (a : Byte) : OperandCheck.Statement (.jne a) := by
  simp [OperandCheck.Statement, Instr.wellFormed, Instr.operands, Instr.mnemonic, Mnemonic.checksA, Mnemonic.checksB,
    Mnemonic.format]

theorem OperandCheck.ldi (a b : Byte) : OperandCheck.Statement (.ldi a b) := by
  simp [OperandCheck.Statement, Instr.wellFormed, Instr.operands, Instr.mnemonic, Mnemonic.checksA, Mnemonic.checksB,
    Mnemonic.format]

theorem OperandCheck.add (a b : Byte) : OperandCheck.Statement (.add a b) := by
  simp [OperandCheck.Statement, Instr.wellFormed, Instr.operands, Instr.mnemonic, Mnemonic.checksA, Mnemonic.checksB,
    Mnemonic.format]

theorem OperandCheck.sub (a b : Byte) : OperandCheck.Statement (.sub a b) := by
  simp [OperandCheck.Statement, Instr.wellFormed, Instr.operands, Instr.mnemonic, Mnemonic.checksA, Mnemonic.checksB,
    Mnemonic.format]

theorem OperandCheck.mul (a b : Byte) : OperandCheck.Statement (.mul a b) := by
  simp [OperandCheck.Statement, Instr.wellFormed, Instr.operands, Instr.mnemonic, Mnemonic.checksA, Mnemonic.checksB,
    Mnemonic.format]

theorem OperandCheck.div (a b : Byte) : OperandCheck.Statement (.div a b) := by
  simp [OperandCheck.Statement, Instr.wellFormed, Instr.operands, Instr.mnemonic, Mnemonic.checksA, Mnemonic.checksB,
    Mnemonic.format]

theorem OperandCheck.mod (a b : Byte) : OperandCheck.Statement (.mod a b) := by
  simp [OperandCheck.Statement, Instr.wellFormed, Instr.operands, Instr.mnemonic, Mnemonic.checksA, Mnemonic.checksB,
    Mnemonic.format]

theorem OperandCheck.inc (a b : Byte) : OperandCheck.Statement (.inc a b) := by
  simp [OperandCheck.Statement, Instr.wellFormed, Instr.operands, Instr.mnemonic, Mnemonic.checksA, Mnemonic.checksB,
    Mnemonic.format]

theorem OperandCheck.dec (a b : Byte) : OperandCheck.Statement (.dec a b) := by
  simp [OperandCheck.Statement, Instr.wellFormed, Instr.operands, Instr.mnemonic, Mnemonic.checksA, Mnemonic.checksB,
    Mnemonic.format]

theorem OperandCheck.cmp (a b : Byte) : OperandCheck.Statement (.cmp a b) := by
  simp [OperandCheck.Statement, Instr.wellFormed, Instr.operands, Instr.mnemonic, Mnemonic.checksA, Mnemonic.checksB,
    Mnemonic.format]

theorem OperandCheck.and (a b : Byte) : OperandCheck.Statement (.and a b) := by
  simp [OperandCheck.Statement, Instr.wellFormed, Instr.operands, Instr.mnemonic, Mnemonic.checksA, Mnemonic.checksB,
    Mnemonic.format]

theorem OperandCheck.not (a b : Byte) : OperandCheck.Statement (.not a b) := by
  simp [OperandCheck.Statement, Instr.wellFormed, Instr.operands, Instr.mnemonic, Mnemonic.checksA, Mnemonic.checksB,
    Mnemonic.format]

theorem OperandCheck.or (a b : Byte) : OperandCheck.Statement (.or a b) := by
  simp [OperandCheck.Statement, Instr.wellFormed, Instr.operands, Instr.mnemonic, Mnemonic.checksA, Mnemonic.checksB,
    Mnemonic.format]

theorem OperandCheck.xor (a b : Byte) : OperandCheck.Statement (.xor a b) := by
  simp [OperandCheck.Statement, Instr.wellFormed, Instr.operands, Instr.mnemonic, Mnemonic.checksA, Mnemonic.checksB,
    Mnemonic.format]

theorem OperandCheck.shl (a b : Byte) : OperandCheck.Statement (.shl a b) := by
  simp [OperandCheck.Statement, Instr.wellFormed, Instr.operands, Instr.mnemonic, Mnemonic.checksA, Mnemonic.checksB,
    Mnemonic.format]

theorem OperandCheck.shr (a b : Byte) : OperandCheck.Statement (.shr a b) := by
  simp [OperandCheck.Statement, Instr.wellFormed, Instr.operands, Instr.mnemonic, Mnemonic.checksA, Mnemonic.checksB,
    Mnemonic.format]

end Sys2Proof.Laws
end

