-- ==== Sys2Proof/Laws/Step.lean ====
section
/-!
SUPPORT. What one step can do (40_sequencer.md R121), said once, and the fetch as one decode of the three bytes at pc.
-/

namespace Sys2Proof.Machine

/-- The bytes the fetch leaves unread do not matter (R114): it decodes the three bytes at `pc`. -/
theorem State.decodeNext_eq (s : State) :
    s.decodeNext = decode (s.memRead s.pc) (s.memRead (s.pc + 1)) (s.memRead (s.pc + 2)) := by
  cases hm : lookup (s.memRead s.pc) with
  | none =>
    simp only [State.decodeNext, hm]
    exact (decodeWith_unknownOpcode.mpr (lookupWith_none.mp hm)).symm
  | some m =>
    simp only [State.decodeNext, hm]
    exact decode_unread hm (fun h => if_pos h) (fun h => if_pos h)

theorem step_running {s : State} (h : s.status = .running) :
    step s = match s.decodeNext with
      | .instr i => exec i s
      | .unknownOpcode => .next (s.raise .unknownOpcode (s.memRead s.pc))
      | .invalidRegister => .next (s.raise .invalidRegister (s.memRead s.pc)) := by
  cases hd : s.decodeNext <;> simp [step, h, hd]

/-- A step that answers a next state ran the decoded instruction or raised one of the decoder's two errors. -/
theorem step_cases {s t : State} (h : step s = .next t) :
    s.status = .running ∧
      ((∃ i, s.decodeNext = .instr i ∧ exec i s = .next t) ∨
        (s.decodeNext = .unknownOpcode ∧ t = s.raise .unknownOpcode (s.memRead s.pc)) ∨
        (s.decodeNext = .invalidRegister ∧ t = s.raise .invalidRegister (s.memRead s.pc))) := by
  unfold step at h
  split at h
  · cases h
  · cases h
  · refine ⟨‹_›, ?_⟩
    split at h
    · exact .inl ⟨_, ‹_›, h⟩
    · cases h; exact .inr (.inl ⟨‹_›, rfl⟩)
    · cases h; exact .inr (.inr ⟨‹_›, rfl⟩)

/-- A table word placed by `withFetchWord` is what the next step decodes, from any state. -/
theorem State.withFetchWord_decodeNext (s : State) (nbits w : Nat) :
    (s.withFetchWord nbits w).decodeNext =
      decode (tableByte nbits w 0) (tableByte nbits w 1) (tableByte nbits w 2) := by
  have h01 : s.pc ≠ s.pc + 1 := by bv_omega
  have h02 : s.pc ≠ s.pc + 2 := by bv_omega
  have h12 : s.pc + 1 ≠ s.pc + 2 := by bv_omega
  have hread (p : Byte) : (s.withFetchWord nbits w).memRead p = (s.storeAtPc nbits w).memRead p := rfl
  have hpc : (s.withFetchWord nbits w).pc = s.pc := rfl
  rw [State.decodeNext_eq, hpc]
  simp only [hread, State.storeAtPc, State.memWrite_memRead, if_neg h01, if_neg h02, if_neg h12, if_true]

/-- The next step runs the placed word's instruction, wherever the machine stood. -/
theorem step_withFetchWord {s : State} {nbits w : Nat} {i : Instr} (h : decodeTableWord nbits w = some i) :
    step (s.withFetchWord nbits w) = exec i (s.withFetchWord nbits w) := by
  have hd : decode (tableByte nbits w 0) (tableByte nbits w 1) (tableByte nbits w 2) = .instr i := by
    unfold decodeTableWord at h
    split at h <;> simp_all
  rw [step_running (rfl : (s.withFetchWord nbits w).status = .running), State.withFetchWord_decodeNext, hd]

end Sys2Proof.Machine
end

