-- ==== Sys2Proof/Tests/Slice0.lean ====
section
/-!
SUPPORT. The model's own tests. Expected results come from the spec: words from 30_encoding.md R81 and R85, effects from
the vectors V1 to V8 and examples S0 to S7 of 95_test_vectors.md or, where marked, from a rule. Every instruction of a
vector stands at pc = 0x10 as in part V. The `witness_` theorems show a concrete state and operands that meet all the
hypotheses of a statement of Certificates/Slice0/Obligations.lean.
-/

namespace Sys2Proof.Machine.Tests

/-! ## Well-formedness: an ill-formed term for each check -/

theorem test_illFormed_push : (Instr.push 8).wellFormed = false := by decide
theorem test_illFormed_pop : (Instr.pop 8).wellFormed = false := by decide
theorem test_illFormed_prn : (Instr.prn 8).wellFormed = false := by decide
theorem test_illFormed_call : (Instr.call 8).wellFormed = false := by decide
theorem test_illFormed_jmp : (Instr.jmp 8).wellFormed = false := by decide
theorem test_illFormed_jeq : (Instr.jeq 8).wellFormed = false := by decide
theorem test_illFormed_jne : (Instr.jne 8).wellFormed = false := by decide
theorem test_illFormed_ldi : (Instr.ldi 8 0).wellFormed = false := by decide
theorem test_illFormed_not : (Instr.not 255 0).wellFormed = false := by decide
theorem test_illFormed_add : (Instr.add 8 0).wellFormed = false ∧ (Instr.add 0 8).wellFormed = false := by decide
theorem test_illFormed_sub : (Instr.sub 8 0).wellFormed = false ∧ (Instr.sub 0 8).wellFormed = false := by decide
theorem test_illFormed_mul : (Instr.mul 8 0).wellFormed = false ∧ (Instr.mul 0 8).wellFormed = false := by decide
theorem test_illFormed_div : (Instr.div 8 0).wellFormed = false ∧ (Instr.div 0 8).wellFormed = false := by decide
theorem test_illFormed_mod : (Instr.mod 8 0).wellFormed = false ∧ (Instr.mod 0 8).wellFormed = false := by decide
theorem test_illFormed_inc : (Instr.inc 8 0).wellFormed = false ∧ (Instr.inc 0 8).wellFormed = false := by decide
theorem test_illFormed_dec : (Instr.dec 8 0).wellFormed = false ∧ (Instr.dec 0 8).wellFormed = false := by decide
theorem test_illFormed_cmp : (Instr.cmp 8 0).wellFormed = false ∧ (Instr.cmp 0 8).wellFormed = false := by decide
theorem test_illFormed_and : (Instr.and 8 0).wellFormed = false ∧ (Instr.and 0 8).wellFormed = false := by decide
theorem test_illFormed_or : (Instr.or 8 0).wellFormed = false ∧ (Instr.or 0 8).wellFormed = false := by decide
theorem test_illFormed_xor : (Instr.xor 8 0).wellFormed = false ∧ (Instr.xor 0 8).wellFormed = false := by decide
theorem test_illFormed_shl : (Instr.shl 8 0).wellFormed = false ∧ (Instr.shl 0 8).wellFormed = false := by decide
theorem test_illFormed_shr : (Instr.shr 8 0).wellFormed = false ∧ (Instr.shr 0 8).wellFormed = false := by decide
theorem test_wellFormed_freeBytes : (Instr.ldi 7 255).wellFormed = true ∧ (Instr.not 7 255).wellFormed = true := by decide

/-! ## Decoding: every constructor from a word written out from R81 and R85 -/

theorem test_decode_hlt : decode 0b00000001 0b11111111 0b11111111 = .instr (.hlt) := by decide
theorem test_decode_ret : decode 0b00010001 0b11111111 0b11111111 = .instr (.ret) := by decide
theorem test_decode_push : decode 0b01000101 0b00000011 0b11111111 = .instr (.push 3) := by decide
theorem test_decode_pop : decode 0b01000110 0b00000100 0b11111111 = .instr (.pop 4) := by decide
theorem test_decode_prn : decode 0b01000111 0b00000111 0b11111111 = .instr (.prn 7) := by decide
theorem test_decode_call : decode 0b01010000 0b00000001 0b11111111 = .instr (.call 1) := by decide
theorem test_decode_jmp : decode 0b01010100 0b00000010 0b11111111 = .instr (.jmp 2) := by decide
theorem test_decode_jeq : decode 0b01010101 0b00000101 0b11111111 = .instr (.jeq 5) := by decide
theorem test_decode_jne : decode 0b01010110 0b00000110 0b11111111 = .instr (.jne 6) := by decide
theorem test_decode_ldi : decode 0b10000010 0b00000101 0b11111110 = .instr (.ldi 5 254) := by decide
theorem test_decode_add : decode 0b10100000 0b00000001 0b00000010 = .instr (.add 1 2) := by decide
theorem test_decode_sub : decode 0b10100001 0b00000100 0b00000111 = .instr (.sub 4 7) := by decide
theorem test_decode_mul : decode 0b10100010 0b00000111 0b00000100 = .instr (.mul 7 4) := by decide
theorem test_decode_div : decode 0b10100011 0b00000010 0b00000001 = .instr (.div 2 1) := by decide
theorem test_decode_mod : decode 0b10100100 0b00000101 0b00000110 = .instr (.mod 5 6) := by decide
theorem test_decode_inc : decode 0b10100101 0b00000000 0b00000011 = .instr (.inc 0 3) := by decide
theorem test_decode_dec : decode 0b10100110 0b00000011 0b00000000 = .instr (.dec 3 0) := by decide
theorem test_decode_cmp : decode 0b10100111 0b00000110 0b00000101 = .instr (.cmp 6 5) := by decide
theorem test_decode_and : decode 0b10101000 0b00000001 0b00000010 = .instr (.and 1 2) := by decide
theorem test_decode_not : decode 0b10101001 0b00000100 0b10101010 = .instr (.not 4 0xAA) := by decide
theorem test_decode_or : decode 0b10101010 0b00000111 0b00000100 = .instr (.or 7 4) := by decide
theorem test_decode_xor : decode 0b10101011 0b00000010 0b00000001 = .instr (.xor 2 1) := by decide
theorem test_decode_shl : decode 0b10101100 0b00000101 0b00000110 = .instr (.shl 5 6) := by decide
theorem test_decode_shr : decode 0b10101101 0b00000000 0b00000011 = .instr (.shr 0 3) := by decide
theorem test_decode_ls8Inc_unknown : decode 0x65 0 0 = .unknownOpcode := by decide
theorem test_decode_opcodeCheckedFirst : decode 0xAE 9 9 = .unknownOpcode := by decide
theorem test_decode_badA : decode 0xA0 8 1 = .invalidRegister := by decide
theorem test_decode_badB : decode 0xA0 1 8 = .invalidRegister := by decide
theorem test_decode_notThirdByteUnchecked : decode 0xA9 0 0xFF = .instr (.not 0 0xFF) := by decide

/-! ## The host's two entry points -/

theorem test_tableWord_bytesRise : decodeTableWord 24 0x0201A0 = some (.add 1 2) := by decide
theorem test_tableWord_shortRow : decodeTableWord 8 0xA0 = some (.add 0 0) := by decide
theorem test_tableWord_bitsAboveAreZero : decodeTableWord 8 0x0902A0 = some (.add 0 0) := by decide
theorem test_tableWord_refused : decodeTableWord 8 0x00 = none := by decide

/-! ## One step on a small state -/

/-- A state in the middle of a run: `x[0]`, `x[1]` and `sp` given, the rest as after reset, pc = 0x10. -/
def at10 (x0 x1 sp : Byte) : State :=
  { State.reset with regs := #v[x0, x1, 0, 0, 0, 0, 0, sp], pc := 0x10 }

/-- The state after reset with the bytes as the image. -/
def booted (image : List Byte) : State := { State.reset with mem := Memory.ofBytes 0 image }

/-- The next state; where there is none, a state no test expects. -/
def after (r : Result) : State :=
  match r with
  | .next t => t
  | _ => { at10 0xEE 0xEE 0xEE with pc := 0xEE, status := .errored }

theorem test_ldi_moves_stack :
    (let t := after (exec (.ldi 7 0x20) (at10 0 0 0xF4)); (t.sp, t.pc)) =
      (0x20, 0x13) := by decide
theorem test_ldi_immediate_unchecked :
    (let t := after (exec (.ldi 5 9) (at10 0 0 0xF4)); (t.reg 5, t.pc)) =
      (9, 0x13) := by decide
theorem test_prn_appends :
    (let t := after (exec (.prn 0) ({ at10 200 0 0xF4 with out := [7] })); (t.out, t.pc)) =
      ([7, 200], 0x12) := by decide
theorem test_prn_sp :
    (let t := after (exec (.prn 7) (at10 0 0 0xF4)); (t.out)) =
      [244] := by decide
theorem test_hlt :
    (let t := after (exec (.hlt) (at10 0 0 0xF4)); (t.status, t.pc)) =
      (.halted, 0x11) := by decide
theorem test_hlt_pc_wraps :
    (let t := after (exec (.hlt) ({ at10 0 0 0xF4 with pc := 0xFF })); (t.status, t.pc)) =
      (.halted, 0) := by decide
theorem test_push_wraps :
    (let t := after (exec (.push 0) (at10 0xAB 0 0)); (t.sp, t.memRead 0xFF, t.pc)) =
      (0xFF, 0xAB, 0x12) := by decide
theorem test_push_sp_stores_decremented :
    (let t := after (exec (.push 7) (at10 0 0 0xF4)); (t.sp, t.memRead 0xF3)) =
      (0xF3, 0xF3) := by decide
theorem test_pop_keeps_byte :
    (let t := after (exec (.pop 1) ({ at10 0 0 0xF3 with mem := [(0xF3, 5)] })); (t.reg 1, t.sp, t.memRead 0xF3, t.pc)) =
      (5, 0xF4, 5, 0x12) := by decide
theorem test_pop_sp_increments_popped :
    (let t := after (exec (.pop 7) ({ at10 0 0 0x40 with mem := [(0x40, 0xFF)] })); (t.sp, t.pc)) =
      (0, 0x12) := by decide
theorem test_call_return_address_wraps :
    (let t := after (exec (.call 1) ({ at10 0 0x10 0xF4 with pc := 0xFE, mem := [(0xF3, 0x99)] })); (t.sp, t.memRead 0xF3, t.pc)) =
      (0xF3, 0, 0x10) := by decide
theorem test_call_sp_goes_to_slot :
    (let t := after (exec (.call 7) (at10 0 0 0xF4)); (t.sp, t.memRead 0xF3, t.pc)) =
      (0xF3, 0x12, 0xF3) := by decide
theorem test_ret :
    (let t := after (exec (.ret) ({ at10 0 0 0xF3 with mem := [(0xF3, 8)] })); (t.pc, t.sp)) =
      (8, 0xF4) := by decide
theorem test_ret_wraps :
    (let t := after (exec (.ret) ({ at10 0 0 0xFF with mem := [(0xFF, 0x30)] })); (t.pc, t.sp)) =
      (0x30, 0) := by decide
theorem test_jmp :
    (let t := after (exec (.jmp 1) (at10 0 0x80 0xF4)); (t.pc)) =
      0x80 := by decide
theorem test_jeq_taken :
    (let t := after (exec (.jeq 1) ({ at10 0 0x30 0xF4 with fl := ⟨true, false, false⟩ })); (t.pc)) =
      0x30 := by decide
theorem test_jeq_before_any_cmp :
    (let t := after (exec (.jeq 1) (at10 0 0x30 0xF4)); (t.pc)) =
      0x12 := by decide
theorem test_jne_taken_on_less :
    (let t := after (exec (.jne 1) ({ at10 0 0x30 0xF4 with fl := ⟨false, true, false⟩ })); (t.pc)) =
      0x30 := by decide
theorem test_jne_not_taken :
    (let t := after (exec (.jne 1) ({ at10 0 0x30 0xF4 with fl := ⟨true, false, false⟩ })); (t.pc)) =
      0x12 := by decide
theorem test_add :
    (let t := after (exec (.add 0 1) (at10 200 100 0xF4)); (t.reg 0, t.reg 1, t.pc)) =
      (44, 100, 0x13) := by decide
theorem test_sub :
    (let t := after (exec (.sub 0 1) (at10 5 10 0xF4)); (t.reg 0, t.reg 1, t.pc)) =
      (251, 10, 0x13) := by decide
theorem test_mul :
    (let t := after (exec (.mul 0 1) (at10 255 255 0xF4)); (t.reg 0, t.reg 1, t.pc)) =
      (1, 255, 0x13) := by decide
theorem test_div :
    (let t := after (exec (.div 0 1) (at10 200 3 0xF4)); (t.reg 0, t.reg 1, t.pc)) =
      (66, 3, 0x13) := by decide
theorem test_mod :
    (let t := after (exec (.mod 0 1) (at10 200 3 0xF4)); (t.reg 0, t.reg 1, t.pc)) =
      (2, 3, 0x13) := by decide
theorem test_inc :
    (let t := after (exec (.inc 0 1) (at10 77 255 0xF4)); (t.reg 0, t.reg 1, t.pc)) =
      (0, 255, 0x13) := by decide
theorem test_dec :
    (let t := after (exec (.dec 0 1) (at10 77 0 0xF4)); (t.reg 0, t.reg 1, t.pc)) =
      (255, 0, 0x13) := by decide
theorem test_and :
    (let t := after (exec (.and 0 1) (at10 0xCC 0xAA 0xF4)); (t.reg 0, t.reg 1, t.pc)) =
      (0x88, 0xAA, 0x13) := by decide
theorem test_or :
    (let t := after (exec (.or 0 1) (at10 0xCC 0xAA 0xF4)); (t.reg 0, t.reg 1, t.pc)) =
      (0xEE, 0xAA, 0x13) := by decide
theorem test_xor :
    (let t := after (exec (.xor 0 1) (at10 0xCC 0xAA 0xF4)); (t.reg 0, t.reg 1, t.pc)) =
      (0x66, 0xAA, 0x13) := by decide
theorem test_shl :
    (let t := after (exec (.shl 0 1) (at10 0x81 1 0xF4)); (t.reg 0, t.reg 1, t.pc)) =
      (2, 1, 0x13) := by decide
theorem test_shl_count_not_reduced :
    (let t := after (exec (.shl 0 1) (at10 3 9 0xF4)); (t.reg 0, t.reg 1, t.pc)) =
      (0, 9, 0x13) := by decide
theorem test_shr :
    (let t := after (exec (.shr 0 1) (at10 0x81 1 0xF4)); (t.reg 0, t.reg 1, t.pc)) =
      (0x40, 1, 0x13) := by decide
theorem test_shr_by_255 :
    (let t := after (exec (.shr 0 1) (at10 0xFF 255 0xF4)); (t.reg 0, t.reg 1, t.pc)) =
      (0, 255, 0x13) := by decide
theorem test_add_same_register :
    (let t := after (exec (.add 0 0) (at10 128 7 0xF4)); (t.reg 0, t.reg 1, t.pc)) =
      (0, 7, 0x13) := by decide
theorem test_not :
    (let t := after (exec (.not 0 0x55) (at10 0x0F 0 0xF4)); (t.reg 0, t.reg 1, t.pc)) =
      (0xF0, 0, 0x13) := by decide
theorem test_cmp_unsigned :
    (let t := after (exec (.cmp 0 1) ({ at10 128 127 0xF4 with fl := ⟨true, false, false⟩ })); (t.fl, t.pc)) =
      (⟨false, false, true⟩, 0x13) := by decide
theorem test_cmp_less :
    (let t := after (exec (.cmp 0 1) (at10 2 200 0xF4)); (t.fl, t.reg 0)) =
      (⟨false, true, false⟩, 2) := by decide
theorem test_div_by_zero :
    (let t := after (exec (.div 0 1) (at10 9 0 0xF4)); (t.status, t.fault, t.pc, t.reg 0)) =
      (.errored, some ⟨.divisionByZero, 0x10, 0xA3⟩, 0x10, 9) := by decide
theorem test_mod_by_zero :
    (let t := after (exec (.mod 0 1) (at10 9 0 0xF4)); (t.fault, t.reg 0)) =
      (some ⟨.divisionByZero, 0x10, 0xA4⟩, 9) := by decide
theorem test_invalidRegister_before_division :
    (let t := after (exec (.div 9 1) (at10 9 0 0xF4)); (t.fault)) =
      some ⟨.invalidRegister, 0x10, 0xA3⟩ := by decide
theorem test_jeq_invalidRegister_not_taken :
    (let t := after (exec (.jeq 8) (at10 0 0 0xF4)); (t.fault, t.pc)) =
      (some ⟨.invalidRegister, 0x10, 0x55⟩, 0x10) := by decide
theorem test_step_zero_byte_is_no_nop :
    (after (step State.reset)).fault =
      some ⟨.unknownOpcode, 0, 0⟩ := by decide
theorem test_step_runs_ldi :
    (let t := after (step (booted [0x82, 0x00, 0x08])); (t.reg 0, t.pc)) =
      (8, 3) := by decide
theorem test_step_straddles_wrap :
    (let t := after (step { State.reset with pc := 0xFE, mem := [(0, 0x82), (0xFE, 0x82), (0xFF, 1)] }); (t.reg 1, t.pc)) =
      (0x82, 1) := by decide
theorem test_push_over_own_operand :
    (let t := after (step { at10 0xAA 0xBB 0x12 with mem := [(0x10, 0x45), (0x11, 1)] }); (t.sp, t.memRead 0x11, t.pc)) =
      (0x11, 0xBB, 0x12) := by decide

theorem test_firstStepRunsPlacedWord :
    (let t := after (step (State.reset.withFetchWord 24 0x090082)); (t.reg 0, t.pc)) =
      (9, 3) := by decide

/-! ## Witnesses: the hypotheses of each statement are met together -/

theorem bytesAtPc_of (bytes : List Byte) (s : State)
    (h : (List.range bytes.length).all (fun k => decide (bytes[k]? = some (s.memRead (s.pc + BitVec.ofNat 8 k)))) = true) :
    BytesAtPc bytes s := by
  intro k b hk
  have hlt : k < bytes.length := (List.getElem?_eq_some_iff.mp hk).1
  have hall := List.all_eq_true.mp h k (List.mem_range.mpr hlt)
  have := of_decide_eq_true hall
  rw [hk] at this
  exact (Option.some.inj this).symm

theorem witness_DecodeOfEncodeUnderAnyOpcodeMap :
    Function.Injective defaultOpc ∧ (Instr.add 7 0).wellFormed = true := ⟨defaultOpc_injective, by decide⟩

theorem witness_DecodedInstructionReencodes : decodeWith defaultOpc 0xA9 7 0x55 = .instr (.not 7 0x55) := by decide

theorem witness_StepRunsDecodedInstruction :
    let s := booted [0xA0, 7, 0]
    s.status = .running ∧ decode (s.memRead s.pc) (s.memRead (s.pc + 1)) (s.memRead (s.pc + 2)) = .instr (.add 7 0) := by
  decide

theorem witness_EncodedInstructionAtPcRuns :
    let s := { State.reset with pc := 0xFE, mem := [(0, 0x82), (0xFE, 0x82), (0xFF, 1)] }
    s.status = .running ∧ (Instr.ldi 1 0x82).wellFormed = true ∧ BytesAtPc (encode (.ldi 1 0x82)) s :=
  ⟨rfl, by decide, bytesAtPc_of _ _ (by decide)⟩

theorem witness_UnknownOpcodeRaises :
    State.reset.status = .running ∧ ∀ m, defaultOpc m ≠ State.reset.memRead State.reset.pc :=
  ⟨rfl, fun m => by cases m <;> decide⟩

theorem witness_InvalidRegisterPrecedesExecution_a :
    let s := booted [0xA3, 8, 1]
    s.status = .running ∧ s.memRead s.pc = defaultOpc .div ∧ s.reg 1 = 0 ∧
      (Mnemonic.div.checksA = true ∧ 8 ≤ (s.memRead (s.pc + 1)).toNat) := by decide

theorem witness_InvalidRegisterPrecedesExecution_b :
    let s := booted [0xA3, 7, 8]
    s.status = .running ∧ s.memRead s.pc = defaultOpc .div ∧
      (Mnemonic.div.checksB = true ∧ 8 ≤ (s.memRead (s.pc + 2)).toNat) := by decide

theorem witness_NoStepAfterTheEnd :
    (after (step (booted [0x01]))).status = .halted ∧ (after (step (booted [0xFF]))).status = .errored := by decide

theorem witness_RunningAlwaysSteps : State.reset.status = .running := rfl

theorem witness_StatusTransitions :
    ∃ t u v, step (booted [0x01]) = .next t ∧ t.status = .halted ∧ step (booted [0xFF]) = .next u ∧ u.status = .errored ∧
      step (booted [0x82, 0, 8]) = .next v ∧ v.status = .running :=
  ⟨_, _, _, rfl, by decide, rfl, by decide, rfl, by decide⟩

theorem witness_ErrorsArePrecise : ∃ t, step (booted [0xA3, 0, 1]) = .next t ∧ t.status = .errored :=
  ⟨_, rfl, by decide⟩

theorem inv_of_running (s : State) (h : s.status = .running ∧ s.fault = none ∧ s.mem.wf = true ∧ s.fl = ⟨false, false, false⟩) :
    s.Inv where
  mem_wf := h.2.2.1
  flags_exclusive := by rw [h.2.2.2]; simp [Flags.atMostOne]
  fault_iff_errored := by rw [h.1, h.2.1]; simp
  record_precise := by rw [h.2.1]; simp

theorem witness_StepKeepsInv : (booted [0x45, 7]).Inv ∧ ∃ t, step (booted [0x45, 7]) = .next t :=
  ⟨inv_of_running _ (by decide), _, rfl⟩

theorem witness_LoadedImageHasInv :
    (∃ s, State.load [0x01] = some s) ∧ 256 < (List.replicate 257 (0 : Byte)).length :=
  ⟨⟨_, rfl⟩, by rw [List.length_replicate]; decide⟩

theorem witness_ResetEstablishesState :
    (List.replicate 256 (0xFF : Byte)).length ≤ 256 ∧ ([] : List Byte).length ≤ 256 :=
  ⟨by rw [List.length_replicate], by decide⟩

theorem witness_OnlyCmpWritesFlags :
    ∃ t u, exec (.add 7 0) (at10 1 2 3) = .next t ∧ (Instr.add 7 0).mnemonic ≠ .cmp ∧
      exec (.jeq 1) (at10 1 2 3) = .next u := ⟨_, _, rfl, by decide, rfl⟩

theorem witness_ExactlyOneFlagPersists :
    let s := { booted [0xA7, 0, 7] with fl := ⟨true, false, false⟩ }
    s.fl.exactlyOne ∧ ∃ t, step s = .next t := ⟨by simp [Flags.exactlyOne, Flags.atMostOne], _, rfl⟩

theorem witness_OnlyPushAndCallWriteMemory :
    ∃ t u, exec (.push 0) (at10 5 0 0) = .next t ∧ t.memRead 0xFF ≠ (at10 5 0 0).memRead 0xFF ∧
      exec (.call 0) (at10 5 0 0xF4) = .next u ∧ u.memRead 0xF3 ≠ (at10 5 0 0xF4).memRead 0xF3 :=
  ⟨_, _, rfl, by decide, rfl, by decide⟩

theorem witness_RegistersWrittenAsDeclared :
    ∃ t u, exec (.inc 7 0) (at10 5 0 0) = .next t ∧ t.reg 7 ≠ (at10 5 0 0).reg 7 ∧
      exec (.push 0) (at10 5 0 0) = .next u ∧ u.reg 7 ≠ (at10 5 0 0).reg 7 := ⟨_, _, rfl, by decide, rfl, by decide⟩

theorem witness_FallThroughByLength :
    let s := { at10 0 0 0xF4 with pc := 0xFF }
    ∃ t, exec (.cmp 0 7) s = .next t ∧ s.status = .running ∧ t.status ≠ .errored ∧
      (Instr.cmp 0 7).mnemonic ∉ [Mnemonic.call, .ret, .jmp, .jeq, .jne] := ⟨_, rfl, rfl, by decide, by decide⟩

theorem witness_OutputOnlyGrows : ∃ t, exec (.prn 7) (at10 0 0 9) = .next t ∧ t.out ≠ (at10 0 0 9).out :=
  ⟨_, rfl, by decide⟩

/-- Each status, no record, and the invariant in `Running` and, after an unknown opcode, in `Errored`. -/
theorem witness_HostSeesCauseExactlyWhenErrored :
    State.reset.status = .running ∧ State.reset.fault = none ∧ State.reset.Inv ∧
      (after (step (booted [0x01]))).status = .halted ∧
      (State.reset.raise .unknownOpcode 0).status = .errored ∧ (State.reset.raise .unknownOpcode 0).Inv :=
  ⟨rfl, rfl, inv_of_running _ (by decide), by decide, rfl,
    ⟨rfl, by simp [Flags.atMostOne, State.reset], by simp, by
      intro r hr
      cases hr
      exact ⟨rfl, by decide, .inl rfl⟩⟩⟩

/-- Every cause stands in the record of some state. -/
theorem witness_HostSeesCauseExactlyWhenErrored_record (c : Cause) :
    (State.reset.raise c 0).fault = some ⟨c, 0, 0⟩ := rfl

/-- The codes of R210 and R224, by their tables: what the host takes after an unknown opcode 0xFF at 0, after HLT, after
a DIV by zero and after an ADD with a register byte 8. -/
theorem test_delivers :
    (after (step (booted [0xFF]))).delivers = ([], 2, 1, some (0, 0xFF)) ∧
      (after (step (booted [0x01]))).delivers = ([], 1, 0, none) ∧
      (after (step (booted [0xA3, 0, 1]))).delivers = ([], 2, 3, some (0, 0xA3)) ∧
      (after (step (booted [0xA0, 8, 1]))).delivers = ([], 2, 5, some (0, 0xA0)) :=
  ⟨rfl, rfl, rfl, rfl⟩

theorem witness_InvalidRegisterRaisedByEveryForm :
    (Instr.jeq 8).wellFormed = false ∧ (Instr.add 7 8).wellFormed = false ∧ (Instr.not 255 0).wellFormed = false := by
  decide

/-- The operand hypotheses of the statements LdiLoadsImmediate to CmpSetsExactlyOneFlag, at the least bad byte. -/
theorem witness_badOperandBytes :
    7 < (8 : Byte).toNat ∧ (7 < (8 : Byte).toNat ∨ 7 < (0 : Byte).toNat) ∧ (7 < (7 : Byte).toNat ∨ 7 < (8 : Byte).toNat) := by
  decide

theorem witness_DivModOrDivisionByZero :
    (at10 9 1 0xF4).reg 1 ≠ 0 ∧ (at10 9 255 0xF4).reg 1 ≠ 0 ∧ (at10 0 0 0xF4).reg 1 = 0 := by decide

theorem witness_ShiftsByWholeCount : 8 ≤ ((at10 1 8 0xF4).reg 1).toNat ∧ ¬ 8 ≤ ((at10 1 7 0xF4).reg 1).toNat := by decide

theorem witness_PushThenPopRoundTrips :
    let s := { booted [0x45, 0, 0x46, 1] with regs := #v[5, 0, 0, 0, 0, 0, 0, 0] }
    s.status = .running ∧ (0 : Reg) ≠ 7 ∧ (1 : Reg) ≠ 7 ∧ BytesAtPc [0x45, Reg.byte 0, 0x46, Reg.byte 1] s ∧
      s.sp - 1 ≠ s.pc + 2 ∧ s.sp - 1 ≠ s.pc + 3 :=
  ⟨rfl, by decide, by decide, bytesAtPc_of _ _ (by decide), by decide, by decide⟩

theorem witness_RetReturnsAfterCall :
    let s := at10 0 14 0xF4
    ∃ t, exec (.call (Reg.byte 1)) s = .next t ∧
      ({ t with pc := 0x1A } : State).sp = t.sp ∧ ({ t with pc := 0x1A } : State).memRead t.sp = t.memRead t.sp :=
  ⟨_, rfl, rfl, rfl⟩

theorem witness_BranchesFollowComparedValues :
    ∃ t, exec (.cmp (Reg.byte 0) (Reg.byte 1)) (at10 3 3 0xF4) = .next t ∧ (t.setReg 0 99).fl = t.fl := ⟨_, rfl, rfl⟩

/-- PUSH R0 at 0 with the slot at 2, then the bytes 9, 9: `x[0]` and `sp` given. -/
def pushedOnto (x0 : Byte) : State := { booted [0x45, 0, 0x47, 9, 9] with regs := #v[x0, 0, 0, 0, 0, 0, 0, 3] }

/-- The hypotheses for every pushed byte; then one of each kind: HLT's opcode, no opcode, ADD's opcode before a register
byte above 7. -/
theorem witness_PushedByteIsNextOpcode :
    (∀ x0, (pushedOnto x0).status = .running ∧ BytesAtPc [0x45, Reg.byte 0] (pushedOnto x0) ∧
      (pushedOnto x0).sp - 1 = (pushedOnto x0).pc + 2 ∧
      x0 = (if (0 : Reg) = 7 then (pushedOnto x0).sp - 1 else (pushedOnto x0).reg 0)) ∧
    decode 0x01 ((pushedOnto 0x01).memRead 3) ((pushedOnto 0x01).memRead 4) = .instr .hlt ∧
    decode 0x00 ((pushedOnto 0x00).memRead 3) ((pushedOnto 0x00).memRead 4) = .unknownOpcode ∧
    decode 0xA0 ((pushedOnto 0xA0).memRead 3) ((pushedOnto 0xA0).memRead 4) = .invalidRegister :=
  ⟨fun _ => ⟨rfl, bytesAtPc_of _ (booted [0x45, 0, 0x47, 9, 9]) (by decide), (by decide : (3 : Byte) - 1 = 0 + 2), rfl⟩,
    by decide, by decide, by decide⟩

/-- PUSH R7 at 0x43 with `sp` 0x46: the slot and the stored byte are both 0x45, PUSH's opcode. -/
theorem witness_PushedByteIsNextOpcode_sp :
    let s := { State.reset with regs := #v[0, 0, 0, 0, 0, 0, 0, 0x46], pc := 0x43, mem := [(0x43, 0x45), (0x44, 7)] }
    s.status = .running ∧ BytesAtPc [0x45, Reg.byte 7] s ∧ s.sp - 1 = s.pc + 2 ∧
      (0x45 : Byte) = (if (7 : Reg) = 7 then s.sp - 1 else s.reg 7) ∧
      decode 0x45 (s.memRead (s.pc + 3)) (s.memRead (s.pc + 4)) = .instr (.push 0) :=
  ⟨rfl, bytesAtPc_of _ _ (by decide), by decide, by decide, by decide⟩

/-- The same in the other clause's corner: PUSH R7 whose stored byte 0xA0 is ADD's opcode, before a register byte 8, and
one whose stored byte 2 is no opcode. -/
theorem witness_PushedByteIsNextOpcode_spErrors :
    let s := { State.reset with
      regs := #v[0, 0, 0, 0, 0, 0, 0, 0xA1], pc := 0x9E, mem := [(0x9E, 0x45), (0x9F, 7), (0xA1, 8)] }
    let u := { booted [0x45, 7] with regs := #v[0, 0, 0, 0, 0, 0, 0, 3] }
    (s.status = .running ∧ BytesAtPc [0x45, Reg.byte 7] s ∧ s.sp - 1 = s.pc + 2 ∧ s.sp - 1 = 0xA0 ∧
      decode 0xA0 (s.memRead (s.pc + 3)) (s.memRead (s.pc + 4)) = .invalidRegister) ∧
    u.status = .running ∧ BytesAtPc [0x45, Reg.byte 7] u ∧ u.sp - 1 = u.pc + 2 ∧ u.sp - 1 = 2 ∧
      decode 2 (u.memRead (u.pc + 3)) (u.memRead (u.pc + 4)) = .unknownOpcode :=
  ⟨⟨rfl, bytesAtPc_of _ _ (by decide), by decide, by decide, by decide⟩,
    rfl, bytesAtPc_of _ _ (by decide), by decide, by decide, by decide⟩

end Sys2Proof.Machine.Tests
end

section
/-!
The flags register in execution (10_state.md R27, R28). The key fact is that every instruction but CMP commutes with
overwriting FL by any flags of the same Equal: it keeps what it is given and reads of it nothing but Equal.
-/

namespace Sys2Proof.Machine

/-- Trichotomy of the unsigned comparison (45_alu_logic_shift_cmp.md R197). -/
theorem compareFlags_exactlyOne (x y : Byte) : (compareFlags x y).exactlyOne := by
  simp only [Flags.exactlyOne, Flags.atMostOne, compareFlags, decide_eq_true_eq]
  omega

theorem exec_cmp_byte (ra rb : Reg) (s : State) :
    exec (.cmp ra.byte rb.byte) s = .next ((s.setFlags (compareFlags (s.reg ra) (s.reg rb))).advance 3) :=
  withRegs_byte .cmp ra rb s _

/-- The operand check commutes with overwriting the flags when what follows it does. -/
theorem withReg_setFlags {m : Mnemonic} {a : Byte} {s t : State} {f : Flags} {k k' : Reg → Result}
    (hk : ∀ r u, k r = .next u → k' r = .next (u.setFlags f)) (h : withReg m a s k = .next t) :
    withReg m a (s.setFlags f) k' = .next (t.setFlags f) := by
  rcases withReg_cases h with ⟨r, rfl, hr⟩ | ⟨hbad, rfl⟩
  · rw [withReg_byte]
    exact hk r t hr
  · exact withReg_bad hbad

theorem withRegs_setFlags {m : Mnemonic} {a b : Byte} {s t : State} {f : Flags} {k k' : Reg → Reg → Result}
    (hk : ∀ ra rb u, k ra rb = .next u → k' ra rb = .next (u.setFlags f)) (h : withRegs m a b s k = .next t) :
    withRegs m a b (s.setFlags f) k' = .next (t.setFlags f) :=
  withReg_setFlags (fun ra _ => withReg_setFlags (hk ra)) h

/-- A choice between two next states, made on a condition that does not read the flags. -/
theorem ite_next_setFlags {p : Prop} [Decidable p] {x y u : State} {f : Flags}
    (h : (if p then Host.Outcome.next x else .next y : Result) = .next u) :
    (if p then Host.Outcome.next (x.setFlags f) else .next (y.setFlags f) : Result) = .next (u.setFlags f) := by
  split at h <;> cases h
  · exact if_pos ‹_›
  · exact if_neg ‹_›

theorem aluBinary_setFlags {m : Mnemonic} {g : Byte → Byte → Byte} {a b : Byte} {s t : State} (f : Flags)
    (h : aluBinary m g a b s = .next t) : aluBinary m g a b (s.setFlags f) = .next (t.setFlags f) :=
  withRegs_setFlags (fun _ _ _ hu => by cases hu; rfl) h

theorem aluMove_setFlags {m : Mnemonic} {g : Byte → Byte} {a b : Byte} {s t : State} (f : Flags)
    (h : aluMove m g a b s = .next t) : aluMove m g a b (s.setFlags f) = .next (t.setFlags f) :=
  withRegs_setFlags (fun _ _ _ hu => by cases hu; rfl) h

theorem aluDivide_setFlags {m : Mnemonic} {g : Byte → Byte → Byte} {a b : Byte} {s t : State} (f : Flags)
    (h : aluDivide m g a b s = .next t) : aluDivide m g a b (s.setFlags f) = .next (t.setFlags f) := by
  refine withRegs_setFlags (fun _ _ _ hu => ?_) h
  exact ite_next_setFlags hu

/-- Every instruction but CMP keeps the flags it is given and reads of them nothing but Equal. -/
theorem exec_setFlags {i : Instr} {s t : State} {f : Flags} (hi : i.mnemonic ≠ .cmp) (hE : f.E = s.fl.E)
    (h : exec i s = .next t) : exec i (s.setFlags f) = .next (t.setFlags f) := by
  cases i with
  | hlt | ret => cases h; rfl
  | push | pop | prn | call | jmp | ldi | not => exact withReg_setFlags (fun _ _ hu => by cases hu; rfl) h
  | jeq | jne =>
    refine withReg_setFlags (fun _ _ hu => ?_) h
    rw [State.setFlags_fl, hE]
    exact ite_next_setFlags hu
  | add | sub | mul | and | or | xor | shl | shr => exact aluBinary_setFlags f h
  | div | mod => exact aluDivide_setFlags f h
  | inc | dec => exact aluMove_setFlags f h
  | cmp => exact absurd rfl hi

/-- Overwriting the flags with themselves changes nothing, so `exec_setFlags` says too that they are kept. -/
theorem exec_fl {i : Instr} {s t : State} (hi : i.mnemonic ≠ .cmp) (h : exec i s = .next t) : t.fl = s.fl := by
  have hself : exec i s = .next (t.setFlags s.fl) := exec_setFlags hi rfl h
  rw [h] at hself
  injection hself with ht
  rw [ht, State.setFlags_fl]

/-- From any flags at all CMP writes the same ones, or raises its error and leaves those it is given. -/
theorem exec_cmp_setFlags {a b : Byte} {s t : State} (f : Flags) (h : exec (.cmp a b) s = .next t) :
    exec (.cmp a b) (s.setFlags f) = .next t ∨ exec (.cmp a b) (s.setFlags f) = .next (t.setFlags f) := by
  rcases withRegs_cases h with ⟨ra, rb, rfl, rfl, hk⟩ | ⟨hbad, rfl⟩
  · cases hk
    exact .inl (exec_cmp_byte ra rb (s.setFlags f))
  · exact .inr (withRegs_bad hbad)

/-- With any other flags of the same Equal the next state differs in the flags alone. -/
theorem exec_setFlags_agrees {i : Instr} {s t : State} {f : Flags} (hE : f.E = s.fl.E) (h : exec i s = .next t) :
    ∃ t', exec i (s.setFlags f) = .next t' ∧ t'.setFlags t.fl = t := by
  by_cases hi : i.mnemonic = .cmp
  · cases i with
    | cmp a b =>
      rcases exec_cmp_setFlags f h with hsame | hraised
      · exact ⟨t, hsame, rfl⟩
      · exact ⟨_, hraised, rfl⟩
    | _ => cases hi
  · exact ⟨_, exec_setFlags hi hE h, rfl⟩

/-- Settles O17: the three clauses are `exec_fl`, `compareFlags_exactlyOne` and `exec_setFlags_agrees`, the last at
flags that keep Equal. -/
theorem onlyCmpWritesFlags : Obligations.OnlyCmpWritesFlags :=
  ⟨fun _ _ _ h hi => exec_fl hi h,
    fun ra rb s => ⟨_, exec_cmp_byte ra rb s, compareFlags_exactlyOne _ _⟩,
    fun _ _ _ _ _ h => exec_setFlags_agrees rfl h⟩

end Sys2Proof.Machine
end

section
/-!
How a step ends (40_sequencer.md R111, 60_exceptions.md R219). Said once for a meaning and once for the step: it halts,
or it keeps the status, or it is the entry of an error; HLT's opcode byte alone decides for the first.
-/

namespace Sys2Proof.Machine

/-- The instruction `m` took `s` to `t` with status and fault record kept, or by the entry of an error that a program
can raise, with the opcode of `m` in the record. -/
def CompletesOrRaises (m : Mnemonic) (s t : State) : Prop :=
  (t.status = s.status ∧ t.fault = s.fault) ∨ ∃ c : Cause, c.reachable ∧ t = s.raise c (defaultOpc m)

theorem completesOrRaises_invalidRegister (m : Mnemonic) (s : State) :
    CompletesOrRaises m s (s.raise .invalidRegister (defaultOpc m)) :=
  .inr ⟨.invalidRegister, .inr (.inr rfl), rfl⟩

theorem completesOrRaises_divisionByZero (m : Mnemonic) (s : State) :
    CompletesOrRaises m s (s.raise .divisionByZero (defaultOpc m)) :=
  .inr ⟨.divisionByZero, .inr (.inl rfl), rfl⟩

/-- The operand check adds one error to the ways in which what follows it ends. -/
theorem withReg_completesOrRaises {m : Mnemonic} {a : Byte} {s t : State} {k : Reg → Result}
    (hk : ∀ r, k r = .next t → CompletesOrRaises m s t) (h : withReg m a s k = .next t) : CompletesOrRaises m s t := by
  rcases withReg_cases h with ⟨r, -, hr⟩ | ⟨-, rfl⟩
  · exact hk r hr
  · exact completesOrRaises_invalidRegister m s

theorem withRegs_completesOrRaises {m : Mnemonic} {a b : Byte} {s t : State} {k : Reg → Reg → Result}
    (hk : ∀ ra rb, k ra rb = .next t → CompletesOrRaises m s t) (h : withRegs m a b s k = .next t) :
    CompletesOrRaises m s t :=
  withReg_completesOrRaises (fun ra => withReg_completesOrRaises (hk ra)) h

theorem aluDivide_completesOrRaises {m : Mnemonic} {f : Byte → Byte → Byte} {a b : Byte} {s t : State}
    (h : aluDivide m f a b s = .next t) : CompletesOrRaises m s t := by
  rcases aluDivide_cases h with ⟨ra, rb, -, -, -, rfl⟩ | ⟨ra, rb, -, -, -, rfl⟩ | ⟨-, rfl⟩
  · exact .inl ⟨rfl, rfl⟩
  · exact completesOrRaises_divisionByZero m s
  · exact completesOrRaises_invalidRegister m s

/-- Every instruction but HLT keeps the status and the fault record or raises an error. -/
theorem exec_completesOrRaises {i : Instr} {s t : State} (hi : i ≠ .hlt) (h : exec i s = .next t) :
    CompletesOrRaises i.mnemonic s t := by
  cases i with
  | hlt => exact absurd rfl hi
  | ret => cases h; exact .inl ⟨rfl, rfl⟩
  | push | pop | prn | call | jmp | ldi | not =>
    exact withReg_completesOrRaises (fun _ hk => by cases hk; exact .inl ⟨rfl, rfl⟩) h
  | jeq | jne =>
    refine withReg_completesOrRaises (fun _ hk => ?_) h
    split at hk <;> cases hk <;> exact .inl ⟨rfl, rfl⟩
  | add | sub | mul | inc | dec | cmp | and | or | xor | shl | shr =>
    exact withRegs_completesOrRaises (fun _ _ hk => by cases hk; exact .inl ⟨rfl, rfl⟩) h
  | div | mod => exact aluDivide_completesOrRaises h

/-- The byte at `pc` is the opcode of the instruction decoded there (30_encoding.md R80, R113). -/
theorem State.decodeNext_opcode {s : State} {i : Instr} (h : s.decodeNext = .instr i) :
    s.memRead s.pc = defaultOpc i.mnemonic := by
  rw [State.decodeNext_eq] at h
  obtain ⟨m, hm, rfl, -, -⟩ := decodeWith_instr h
  rw [Mnemonic.build_mnemonic, lookupWith_some hm]

/-- HLT has no operand bytes, so its opcode byte is enough to decode it. -/
theorem State.decodeNext_hlt {s : State} (h : s.memRead s.pc = defaultOpc .hlt) : s.decodeNext = .instr .hlt := by
  rw [State.decodeNext_eq, h]
  rfl

/-- R111, R121: everything a step can do to the status and the fault record. It executes HLT and halts, or the byte at
`pc` is another and it goes on in `Running`, or the step is the entry of an error that names `pc` and that byte. -/
theorem step_ends {s t : State} (h : step s = .next t) :
    s.status = .running ∧
      ((s.memRead s.pc = defaultOpc .hlt ∧ t = s.halt.advance 1) ∨
        (s.memRead s.pc ≠ defaultOpc .hlt ∧ t.status = .running ∧ t.fault = s.fault) ∨
        (s.memRead s.pc ≠ defaultOpc .hlt ∧ ∃ c : Cause, c.reachable ∧ t = s.raise c (s.memRead s.pc))) := by
  obtain ⟨hrun, hcases⟩ := step_cases h
  refine ⟨hrun, ?_⟩
  by_cases hop : s.memRead s.pc = defaultOpc .hlt
  · rw [step_running hrun, State.decodeNext_hlt hop] at h
    cases h
    exact .inl ⟨hop, rfl⟩
  · rcases hcases with ⟨i, hdec, hexec⟩ | ⟨-, ht⟩ | ⟨-, ht⟩
    · have hopcode : s.memRead s.pc = defaultOpc i.mnemonic := State.decodeNext_opcode hdec
      have hi : i ≠ .hlt := by rintro rfl; exact hop hopcode
      rcases exec_completesOrRaises hi hexec with ⟨hstatus, hfault⟩ | ⟨c, hc, ht⟩
      · exact .inr (.inl ⟨hop, hstatus.trans hrun, hfault⟩)
      · exact .inr (.inr ⟨hop, c, hc, hopcode ▸ ht⟩)
    · exact .inr (.inr ⟨hop, .unknownOpcode, .inl rfl, ht⟩)
    · exact .inr (.inr ⟨hop, .invalidRegister, .inr (.inr rfl), ht⟩)

/-- A state reached by the entry of an error has the status `Errored`, and `step_ends` leaves no other way into it. -/
theorem step_errored_iff {s t : State} (h : step s = .next t) :
    t.status = .errored ↔ ∃ c op, t = s.raise c op := by
  constructor
  · intro ht
    obtain ⟨-, ⟨-, rfl⟩ | ⟨-, hrun, -⟩ | ⟨-, c, -, hraise⟩⟩ := step_ends h
    · cases ht
    · rw [hrun] at ht; cases ht
    · exact ⟨c, _, hraise⟩
  · rintro ⟨c, op, rfl⟩
    exact State.raise_status s c op

theorem step_halted_iff {s t : State} (h : step s = .next t) :
    t.status = .halted ↔ s.memRead s.pc = defaultOpc .hlt := by
  obtain ⟨-, ⟨hop, rfl⟩ | ⟨hop, hrun, -⟩ | ⟨hop, c, -, rfl⟩⟩ := step_ends h
  · exact iff_of_true rfl hop
  · exact iff_of_false (by simp [hrun]) hop
  · exact iff_of_false (by simp) hop

/-- Settles O11: the reset state's fields are fixed, and the three clauses on a step are `step_ends`, `step_halted_iff`
and `step_errored_iff`. -/
theorem statusTransitions : Obligations.StatusTransitions :=
  ⟨⟨rfl, rfl⟩, fun _ _ h => ⟨(step_ends h).1, step_halted_iff h, step_errored_iff h⟩⟩

end Sys2Proof.Machine
end

section
/-!
Rules that every instruction with a register operand shares: its bytes decode to it (30_encoding.md R80, R113), a result
written to `x[a]` is all that changes but `pc` (10_state.md R22, R26), and a byte above 7 raises InvalidRegister (R83).
-/

namespace Sys2Proof

theorem regByteOk_eq_false {b : Byte} : regByteOk b = false ↔ 7 < b.toNat := by
  simp [regByteOk, Nat.succ_le_iff]

/-- The decoder's test of one operand byte passes when the byte, if it is checked at all, names a register. -/
theorem operandTest_passes {checked : Bool} {b : Byte} (h : checked = true → regByteOk b = true) :
    (checked && (regIndex? b).isNone) = false := by
  cases checked with
  | false => rfl
  | true =>
    obtain ⟨r, rfl⟩ := regByteOk_iff.mp (h rfl)
    simp

/-- The converse of `decodeWith_instr` under the default table: the decoder accepts a mnemonic's opcode byte when the
operand bytes it checks name registers. -/
theorem decode_defaultOpc {m : Mnemonic} {a b : Byte} (ha : m.checksA = true → regByteOk a = true)
    (hb : m.checksB = true → regByteOk b = true) : decode (defaultOpc m) a b = .instr (m.build a b) := by
  have hm : lookupWith defaultOpc (defaultOpc m) = some m := lookup_defaultOpc m
  simp [decode, decodeWith, hm, operandTest_passes ha, operandTest_passes hb, -Bool.and_eq_true]

end Sys2Proof

namespace Sys2Proof.Machine

/-- R26: going on `n` bytes further is addition modulo 256. -/
theorem State.advance_pc_toNat (s : State) (n : Nat) : (s.advance n).pc.toNat = (s.pc.toNat + n) % 256 := by
  simp [BitVec.toNat_add]

/-- An instruction whose whole effect is a register write and the advance of `pc` completes with what it writes. -/
theorem completesWith_setReg_advance {i : Instr} {s : State} {ra : Reg} {v : Byte} {len : Nat} {P : Byte → Prop}
    (h : exec i s = .next ((s.setReg ra v).advance len)) (hv : P v) : CompletesWith i s ra len P := by
  have hwritten : ((s.setReg ra v).advance len).reg ra = v := by simp
  have hothers : SameRegsBut ra s ((s.setReg ra v).advance len) := fun q hq => by simp [hq]
  exact ⟨_, h, hwritten.symm ▸ hv, State.advance_pc_toNat _ len, hothers, fun _ => rfl, rfl, rfl, rfl, rfl⟩

/-- R83, R115: an instruction that begins with the check of `a` raises InvalidRegister when `a` is above 7. -/
theorem raises_invalidRegister_of_withReg {i : Instr} {a : Byte} {s : State} {k : Reg → Result}
    (h : exec i s = withReg i.mnemonic a s k) (ha : 7 < a.toNat) : Raises i s .invalidRegister :=
  h.trans (withReg_bad (regByteOk_eq_false.mpr ha))

end Sys2Proof.Machine
end

section
/-!
LDI (41_load_output_halt.md R130), from the shared rules.
-/

namespace Sys2Proof.Machine

/-- The immediate is not checked, so only the register's byte decides whether LDI decodes. -/
theorem decode_ldi_byte (ra : Reg) (imm : Byte) : decode 0b10000010 ra.byte imm = .instr (.ldi ra.byte imm) :=
  decode_defaultOpc (m := .ldi) (fun _ => regByteOk_byte ra) (fun hchecked => absurd hchecked (by decide))

theorem exec_ldi_byte (ra : Reg) (imm : Byte) (s : State) :
    exec (.ldi ra.byte imm) s = .next ((s.setReg ra imm).advance 3) :=
  withReg_byte .ldi ra s _

/-- Settles O25: the encoding is `decode_ldi_byte`, the effect and its frame are `completesWith_setReg_advance` at LDI's
next state, and the error is the operand check's. -/
theorem ldiLoadsImmediate : Obligations.LdiLoadsImmediate :=
  ⟨fun ra imm s => ⟨decode_ldi_byte ra imm, completesWith_setReg_advance (exec_ldi_byte ra imm s) rfl⟩,
    fun _ _ _ ha => raises_invalidRegister_of_withReg rfl ha⟩

end Sys2Proof.Machine
end

section
/-!
PUSH and POP (42_stack.md R140 to R142). The stack grows downward: to push is to decrement `sp` and then store at the
new `sp` (R140), which CALL does too, so what a push reads as afterwards is said here once for any byte pushed.
-/

namespace Sys2Proof.Machine

/-- The decoder checks only operand `a` of an instruction without a second register operand, so any byte may stand at
`pc+2` (R115, R121). -/
theorem decode_of_checksB_false {m : Mnemonic} (hb : m.checksB = false) (ra : Reg) (z : Byte) :
    decode (defaultOpc m) ra.byte z = .instr (m.build ra.byte z) :=
  decode_defaultOpc (fun _ => regByteOk_byte ra) (fun hchecked => by simp [hb] at hchecked)

/-- The byte `v` pushed: `sp <- sp -8 1`, then `MemWrite(sp, 1, v)` (R140). -/
def State.pushByte (s : State) (v : Byte) : State := (s.setSp (s.sp - 1)).memWrite (s.sp - 1) v

@[simp] theorem State.pushByte_sp (s : State) (v : Byte) : (s.pushByte v).sp = s.sp - 1 := by simp [State.pushByte]

@[simp] theorem State.pushByte_reg (s : State) (v : Byte) (q : Reg) :
    (s.pushByte v).reg q = if q = 7 then s.sp - 1 else s.reg q := by simp [State.pushByte]

@[simp] theorem State.pushByte_memRead (s : State) (v p : Byte) :
    (s.pushByte v).memRead p = if p = s.sp - 1 then v else s.memRead p := by simp [State.pushByte]

/-- R141: what PUSH stores is read after `sp` is decremented, so PUSH R7 stores the decremented `sp`. -/
theorem exec_push_byte (ra : Reg) (s : State) :
    exec (.push ra.byte) s = .next ((s.pushByte (if ra = 7 then s.sp - 1 else s.reg ra)).advance 2) := by
  simp [exec, execPush, State.pushByte]

/-- Settles O28: PUSH's next state is `exec_push_byte`, and its reads and its frame are those of `State.pushByte`. -/
theorem pushDecrementsAndStores : Obligations.PushDecrementsAndStores := by
  refine ⟨fun ra z s => ⟨decode_of_checksB_false (m := .push) rfl ra z, _, exec_push_byte ra s, ?_⟩,
    fun _ _ ha => raises_invalidRegister_of_withReg rfl ha⟩
  refine ⟨by simp, by simp, rfl, ?otherRegs, ?otherBytes, rfl, rfl, rfl, rfl⟩
  case otherRegs => exact fun q hq => by simp [hq]
  case otherBytes => exact fun p hp => (State.pushByte_memRead s _ p).trans (if_neg hp)

/-- R142: POP loads its register, then increments what `sp` is after that. -/
theorem exec_pop_byte (ra : Reg) (s : State) :
    exec (.pop ra.byte) s =
      .next (((s.setReg ra (s.memRead s.sp)).setSp ((s.setReg ra (s.memRead s.sp)).sp + 1)).advance 2) :=
  withReg_byte .pop ra s _

/-- Settles O29: POP's next state is `exec_pop_byte`. For R7 the loaded byte is the `sp` that is then incremented; every
other register is not `sp`, so the increment leaves the loaded byte there. -/
theorem popLoadsAndIncrements : Obligations.PopLoadsAndIncrements := by
  refine ⟨fun ra z s => ⟨decode_of_checksB_false (m := .pop) rfl ra z, _, exec_pop_byte ra s, ?_⟩,
    fun _ _ ha => raises_invalidRegister_of_withReg rfl ha⟩
  refine ⟨?loaded, rfl, fun q hra h7 => by simp [hra, h7], fun _ => rfl, rfl, rfl, rfl, rfl⟩
  case loaded =>
    by_cases h7 : ra = 7
    · simp [h7, State.setReg_sp]
    · simp [h7, State.setReg_sp]

end Sys2Proof.Machine
end

section
/-!
CALL, RET, JMP, JEQ and JNE (43_control_transfer.md R150 to R155). CALL is the push of the return address and a jump;
the two branches are one choice of a target on Equal, taken in opposite senses.
-/

namespace Sys2Proof.Machine

/-- R151: the target is read after `sp` is decremented, so CALL R7 goes to the decremented `sp`. -/
theorem exec_call_byte (ra : Reg) (s : State) :
    exec (.call ra.byte) s = .next ((s.pushByte (s.pc + 2)).setPc (if ra = 7 then s.sp - 1 else s.reg ra)) := by
  simp [exec, execCall, State.pushByte]

/-- Settles O30: CALL's next state is `exec_call_byte`. Its reads and its frame are those of `State.pushByte`, as the
jump that follows the push sets `pc` alone. -/
theorem callPushesReturnAddress : Obligations.CallPushesReturnAddress := by
  refine ⟨fun ra z s => ⟨decode_of_checksB_false (m := .call) rfl ra z, _, exec_call_byte ra s, ?_⟩,
    fun _ _ ha => raises_invalidRegister_of_withReg rfl ha⟩
  refine ⟨by simp, by simp, rfl, ?otherRegs, ?otherBytes, rfl, rfl, rfl, rfl⟩
  case otherRegs => exact fun q hq => by simp [hq]
  case otherBytes => exact fun p hp => (State.pushByte_memRead s _ p).trans (if_neg hp)

/-- RET has no operand bytes, so any two may follow its opcode (R81, R152). -/
theorem decode_ret (y z : Byte) : decode 0b00010001 y z = .instr .ret :=
  decode_defaultOpc (m := .ret) (fun hchecked => absurd hchecked (by decide))
    (fun hchecked => absurd hchecked (by decide))

/-- Settles O31: the meaning of RET is its next state, in which only `sp` and `pc` are written. -/
theorem retPopsTarget : Obligations.RetPopsTarget := by
  refine fun y z s => ⟨decode_ret y z, (s.setSp (s.sp + 1)).setPc (s.memRead s.sp), rfl, rfl, by simp, ?otherRegs,
    fun _ => rfl, rfl, rfl, rfl, rfl⟩
  case otherRegs => exact fun q hq => by simp [hq]

theorem exec_jmp_byte (ra : Reg) (s : State) : exec (.jmp ra.byte) s = .next (s.setPc (s.reg ra)) :=
  withReg_byte .jmp ra s _

/-- Settles O32: JMP's next state is `exec_jmp_byte`, and the error is the operand check's. -/
theorem jmpGoesToRegister : Obligations.JmpGoesToRegister :=
  ⟨fun ra z s => ⟨decode_of_checksB_false (m := .jmp) rfl ra z, exec_jmp_byte ra s⟩,
    fun _ _ ha => raises_invalidRegister_of_withReg rfl ha⟩

/-- A choice between two jumps is one jump to the chosen target. -/
theorem ite_next_setPc (p : Prop) [Decidable p] (s : State) (x y : Byte) :
    (if p then .next (s.setPc x) else .next (s.setPc y) : Result) = .next (s.setPc (if p then x else y)) :=
  (apply_ite (fun target => Host.Outcome.next (s.setPc target)) p x y).symm

/-- R154: to go on 2 bytes further is a jump too, to `pc +8 2`. -/
theorem exec_jeq_byte (ra : Reg) (s : State) :
    exec (.jeq ra.byte) s = .next (s.setPc (if s.fl.E then s.reg ra else s.pc + 2)) :=
  (withReg_byte .jeq ra s _).trans (ite_next_setPc (s.fl.E = true) s (s.reg ra) (s.pc + 2))

/-- R155: the same choice with the two targets exchanged. -/
theorem exec_jne_byte (ra : Reg) (s : State) :
    exec (.jne ra.byte) s = .next (s.setPc (if s.fl.E then s.pc + 2 else s.reg ra)) :=
  (withReg_byte .jne ra s _).trans (ite_next_setPc (s.fl.E = true) s (s.pc + 2) (s.reg ra))

/-- Settles O33: the next states are `exec_jeq_byte` and `exec_jne_byte`. The operand check stands before the choice, so
its error does not depend on Equal. -/
theorem jeqAndJneBranchOnEqual : Obligations.JeqAndJneBranchOnEqual :=
  ⟨fun ra z s => ⟨decode_of_checksB_false (m := .jeq) rfl ra z, decode_of_checksB_false (m := .jne) rfl ra z,
      exec_jeq_byte ra s, exec_jne_byte ra s⟩,
    fun _ _ ha => ⟨raises_invalidRegister_of_withReg rfl ha, raises_invalidRegister_of_withReg rfl ha⟩⟩

end Sys2Proof.Machine
end

section
/-!
ADD, SUB, MUL, INC and DEC (44_alu_arith.md R172 to R174, R177, R178). Each is one of the two shapes of the ALU, so what
it decodes from, its frame and its error are rules over the shape; what is its own is the value it writes, read as a
number: the exact result over the integers, reduced once by the mathematical modulo 256 (R170).
-/

namespace Sys2Proof.Machine

/-- With both operand bytes naming registers, every opcode byte of the table decodes to its own instruction (R115). -/
theorem decode_registers (m : Mnemonic) (ra rb : Reg) :
    decode (defaultOpc m) ra.byte rb.byte = .instr (m.build ra.byte rb.byte) :=
  decode_defaultOpc (fun _ => regByteOk_byte ra) (fun _ => regByteOk_byte rb)

/-- R83, R115: an instruction that begins with the check of both operands raises InvalidRegister on a byte above 7. -/
theorem raises_invalidRegister_of_withRegs {i : Instr} {a b : Byte} {s : State} {k : Reg → Reg → Result}
    (h : exec i s = withRegs i.mnemonic a b s k) (hab : 7 < a.toNat ∨ 7 < b.toNat) : Raises i s .invalidRegister := by
  have hbad : (regByteOk a && regByteOk b) = false :=
    Bool.and_eq_false_iff.mpr (hab.imp regByteOk_eq_false.mpr regByteOk_eq_false.mpr)
  exact h.trans (withRegs_bad hbad)

/-- Narrowing an integer to a byte is the mathematical modulo 256: a negative one wraps upward (R170, R173). -/
theorem byte_ofInt_toNat (n : Int) : ((BitVec.ofInt 8 n).toNat : Int) = n % 256 := by
  rw [BitVec.toNat_ofInt, Int.toNat_of_nonneg (Int.emod_nonneg n (by decide))]
  rfl

theorem aluAdd_toNat (x y : Byte) : (aluAdd x y).toNat = (x.toNat + y.toNat) % 256 := BitVec.toNat_ofNat _ 8

theorem aluSub_toNat (x y : Byte) : ((aluSub x y).toNat : Int) = (x.toNat - y.toNat : Int) % 256 := byte_ofInt_toNat _

theorem aluMul_toNat (x y : Byte) : (aluMul x y).toNat = (x.toNat * y.toNat) % 256 := BitVec.toNat_ofNat _ 8

theorem aluInc_toNat (y : Byte) : (aluInc y).toNat = (y.toNat + 1) % 256 := BitVec.toNat_ofNat _ 8

theorem aluDec_toNat (y : Byte) : ((aluDec y).toNat : Int) = (y.toNat - 1 : Int) % 256 := byte_ofInt_toNat _

/-- R171: an instruction of the shape `aluBinary` completes with its function of the two registers' values. -/
theorem completesWith_of_aluBinary {i : Instr} {m : Mnemonic} {f : Byte → Byte → Byte} {ra rb : Reg} {s : State}
    {P : Byte → Prop} (h : exec i s = aluBinary m f ra.byte rb.byte s) (hf : P (f (s.reg ra) (s.reg rb))) :
    CompletesWith i s ra 3 P :=
  completesWith_setReg_advance (h.trans (aluBinary_byte m f ra rb s)) hf

/-- R89: an instruction of the shape `aluMove` completes with its function of the second register's value alone. -/
theorem completesWith_of_aluMove {i : Instr} {m : Mnemonic} {f : Byte → Byte} {ra rb : Reg} {s : State}
    {P : Byte → Prop} (h : exec i s = aluMove m f ra.byte rb.byte s) (hf : P (f (s.reg rb))) :
    CompletesWith i s ra 3 P :=
  completesWith_setReg_advance (h.trans (aluMove_byte m f ra rb s)) hf

/-- Settles O34: the three are `aluBinary` of `aluAdd`, `aluSub` and `aluMul`, whose values as numbers are
`aluAdd_toNat`, `aluSub_toNat` and `aluMul_toNat`; the error is that of the check of both operands. -/
theorem addSubMulWrap : Obligations.AddSubMulWrap := by
  refine ⟨fun ra rb s => ⟨decode_registers .add ra rb, decode_registers .sub ra rb, decode_registers .mul ra rb,
    ?sum, ?difference, ?product⟩, fun a b s hab => ?invalid⟩
  case sum => exact completesWith_of_aluBinary rfl (aluAdd_toNat _ _)
  case difference => exact completesWith_of_aluBinary rfl (aluSub_toNat _ _)
  case product => exact completesWith_of_aluBinary rfl (aluMul_toNat _ _)
  case invalid =>
    exact ⟨raises_invalidRegister_of_withRegs rfl hab, raises_invalidRegister_of_withRegs rfl hab,
      raises_invalidRegister_of_withRegs rfl hab⟩

/-- Settles O36: the two are `aluMove` of `aluInc` and `aluDec`, which reads the second register alone; their values as
numbers are `aluInc_toNat` and `aluDec_toNat`, and the error is that of the check of both operands. -/
theorem incDecFromSource : Obligations.IncDecFromSource := by
  refine ⟨fun ra rb s => ⟨decode_registers .inc ra rb, decode_registers .dec ra rb, ?successor, ?predecessor⟩,
    fun a b s hab => ?invalid⟩
  case successor => exact completesWith_of_aluMove rfl (aluInc_toNat _)
  case predecessor => exact completesWith_of_aluMove rfl (aluDec_toNat _)
  case invalid =>
    exact ⟨raises_invalidRegister_of_withRegs rfl hab, raises_invalidRegister_of_withRegs rfl hab⟩

end Sys2Proof.Machine
end

section
/-!
AND, OR, XOR, SHL and SHR (45_alu_logic_shift_cmp.md R190 to R192, R194 to R196). All five have the shape `aluBinary`, so
decoding, frame and error come from its rules; said here is what each writes: the bitwise three through their 8 bits, the
two shifts as numbers, where a count of 8 or more drives every bit out of the byte.
-/

namespace Sys2Proof.Machine

theorem aluAnd_bit (x y : Byte) (k : Nat) :
    (aluAnd x y).getLsbD k = true ↔ x.getLsbD k = true ∧ y.getLsbD k = true := by
  rw [aluAnd, BitVec.getLsbD_and, Bool.and_eq_true]

theorem aluOr_bit (x y : Byte) (k : Nat) :
    (aluOr x y).getLsbD k = true ↔ x.getLsbD k = true ∨ y.getLsbD k = true := by
  rw [aluOr, BitVec.getLsbD_or, Bool.or_eq_true]

theorem aluXor_bit (x y : Byte) (k : Nat) : (aluXor x y).getLsbD k = true ↔ x.getLsbD k ≠ y.getLsbD k := by
  rw [aluXor, BitVec.getLsbD_xor, Bool.xor_iff_ne]

/-- Settles O37: the three are `aluBinary` of `aluAnd`, `aluOr` and `aluXor`, whose bits are `aluAnd_bit`, `aluOr_bit`
and `aluXor_bit`; the error is that of the check of both operands. -/
theorem andOrXorBitwise : Obligations.AndOrXorBitwise := by
  refine ⟨fun ra rb s => ⟨decode_registers .and ra rb, decode_registers .or ra rb, decode_registers .xor ra rb,
    ?conjunction, ?disjunction, ?exclusive⟩, fun a b s hab => ?invalid⟩
  case conjunction => exact completesWith_of_aluBinary rfl fun k _ => aluAnd_bit _ _ k
  case disjunction => exact completesWith_of_aluBinary rfl fun k _ => aluOr_bit _ _ k
  case exclusive => exact completesWith_of_aluBinary rfl fun k _ => aluXor_bit _ _ k
  case invalid =>
    exact ⟨raises_invalidRegister_of_withRegs rfl hab, raises_invalidRegister_of_withRegs rfl hab,
      raises_invalidRegister_of_withRegs rfl hab⟩

theorem aluShl_toNat (x c : Byte) : (aluShl x c).toNat = (x.toNat * 2 ^ c.toNat) % 256 := BitVec.toNat_ofNat _ 8

/-- A quotient of a byte is a byte, so SHR's narrowing loses nothing. -/
theorem aluShr_toNat (x c : Byte) : (aluShr x c).toNat = x.toNat / 2 ^ c.toNat := by
  have hfits : x.toNat / 2 ^ c.toNat < 2 ^ 8 := (Nat.div_le_self _ _).trans_lt x.isLt
  rw [aluShr, BitVec.toNat_ofNat, Nat.mod_eq_of_lt hfits]

/-- R194, R196: for a count of 8 or more the factor `2 ^ c` is a multiple of 256, and so is the product. -/
theorem aluShl_eq_zero {x c : Byte} (hc : 8 ≤ c.toNat) : aluShl x c = 0 := by
  have hmultiple : 256 ∣ x.toNat * 2 ^ c.toNat := (pow_dvd_pow 2 hc).mul_left x.toNat
  exact BitVec.eq_of_toNat_eq ((aluShl_toNat x c).trans (Nat.mod_eq_zero_of_dvd hmultiple))

/-- R195, R196: for a count of 8 or more the divisor `2 ^ c` exceeds every byte. -/
theorem aluShr_eq_zero {x c : Byte} (hc : 8 ≤ c.toNat) : aluShr x c = 0 := by
  have hlarge : x.toNat < 2 ^ c.toNat := x.isLt.trans_le (Nat.pow_le_pow_right (by decide) hc)
  exact BitVec.eq_of_toNat_eq ((aluShr_toNat x c).trans (Nat.div_eq_of_lt hlarge))

/-- Settles O39: the two are `aluBinary` of `aluShl` and `aluShr`, whose values as numbers are `aluShl_toNat` and
`aluShr_toNat`, and 0 for counts of 8 and more by `aluShl_eq_zero` and `aluShr_eq_zero`; the error is that of the check of
both operands. -/
theorem shiftsByWholeCount : Obligations.ShiftsByWholeCount := by
  refine ⟨fun ra rb s => ⟨decode_registers .shl ra rb, decode_registers .shr ra rb, ?left, ?right⟩,
    fun a b s hab => ?invalid⟩
  case left => exact completesWith_of_aluBinary rfl ⟨aluShl_toNat _ _, aluShl_eq_zero⟩
  case right => exact completesWith_of_aluBinary rfl ⟨aluShr_toNat _ _, aluShr_eq_zero⟩
  case invalid =>
    exact ⟨raises_invalidRegister_of_withRegs rfl hab, raises_invalidRegister_of_withRegs rfl hab⟩

end Sys2Proof.Machine
end

section
/-!
The error of an unassigned opcode byte (60_exceptions.md R211). The lookup comes before any operand byte is read (R113),
so whether the decoder rejects for this cause is a matter of the byte at `pc` alone.
-/

namespace Sys2Proof.Machine

theorem State.decodeNext_unknownOpcode {s : State} :
    s.decodeNext = .unknownOpcode ↔ ∀ m, defaultOpc m ≠ s.memRead s.pc := by
  rw [State.decodeNext_eq]
  exact decodeWith_unknownOpcode

/-- Settles O7: the decoder answers by `State.decodeNext_unknownOpcode`, and a running step then enters the error by
`State.raise`, which writes the status and the fault record alone. -/
theorem unknownOpcodeRaises : Obligations.UnknownOpcodeRaises := by
  intro s hrunning hnoOpcode
  have hrejected : s.decodeNext = .unknownOpcode := State.decodeNext_unknownOpcode.mpr hnoOpcode
  rw [step_running hrunning, hrejected]
  rfl

end Sys2Proof.Machine
end

section
/-!
The decoder and the encoder against each other, and the step as the run of what stands at `pc` (30_encoding.md R80 to
R89, 40_sequencer.md R112 to R116). A mnemonic with two operand bytes stands between them: `Mnemonic.build` makes the
instruction the decoder answers, and each lemma reads one part of it back.
-/

namespace Sys2Proof

/-- The operand bytes of a built instruction are as many of the two bytes as its format has (R81). -/
theorem Mnemonic.build_operands (m : Mnemonic) (a b : Byte) :
    (m.build a b).operands = [a, b].take m.operandCount := by
  cases m <;> rfl

/-- A built instruction is well formed when the bytes its mnemonic checks name registers (R83, R115). -/
theorem Mnemonic.build_wellFormed (m : Mnemonic) (a b : Byte) : (m.build a b).wellFormed = true ↔
    (m.checksA = true → regByteOk a = true) ∧ (m.checksB = true → regByteOk b = true) := by
  cases m <;> simp [Mnemonic.build, Instr.wellFormed, Mnemonic.checksA, Mnemonic.checksB, Mnemonic.format]

/-- Every instruction is built from its own mnemonic and any two bytes that agree with the operand bytes it has. -/
theorem Instr.build_eq {i : Instr} {a b : Byte} (ha : ∀ x, i.operands[0]? = some x → a = x)
    (hb : ∀ y, i.operands[1]? = some y → b = y) : i.mnemonic.build a b = i := by
  cases i with
  | hlt | ret => rfl
  | push x | pop x | prn x | call x | jmp x | jeq x | jne x => rw [ha x rfl]; rfl
  | ldi x y | add x y | sub x y | mul x y | div x y | mod x y | inc x y | dec x y | cmp x y | and x y | not x y
  | or x y | xor x y | shl x y | shr x y => rw [ha x rfl, hb y rfl]; rfl

/-- Under any opcode table the decoder accepts the row it finds when the checked operand bytes name registers. -/
theorem decodeWith_of_lookup {opc : Mnemonic → Byte} {op a b : Byte} {m : Mnemonic} (hm : lookupWith opc op = some m)
    (hwf : (m.build a b).wellFormed = true) : decodeWith opc op a b = .instr (m.build a b) := by
  obtain ⟨ha, hb⟩ := (m.build_wellFormed a b).mp hwf
  simp [decodeWith, hm, operandTest_passes ha, operandTest_passes hb, -Bool.and_eq_true]

/-- A well-formed instruction is decoded from its opcode byte and any two bytes that agree with its operand bytes. -/
theorem decodeWith_encoded {opc : Mnemonic → Byte} (hopc : Function.Injective opc) {i : Instr} {a b : Byte}
    (hwf : i.wellFormed = true) (ha : ∀ x, i.operands[0]? = some x → a = x)
    (hb : ∀ y, i.operands[1]? = some y → b = y) : decodeWith opc (opc i.mnemonic) a b = .instr i := by
  have hbuild : i.mnemonic.build a b = i := Instr.build_eq ha hb
  rw [decodeWith_of_lookup (lookupWith_opc hopc i.mnemonic) (hbuild.symm ▸ hwf), hbuild]

/-- Settles O3, by the number of operand bytes: the three bytes read are the opcode, then those, then as many of the two
bytes that follow as are wanting, and `decodeWith_encoded` asks nothing of the latter. -/
theorem decodeOfEncodeUnderAnyOpcodeMap : Obligations.DecodeOfEncodeUnderAnyOpcodeMap := by
  intro opc hopc i x y hwf
  match hops : i.operands with
  | [] | [_] | _ :: _ :: _ =>
    simp only [encodeWith, hops, List.cons_append, List.nil_append]
    exact decodeWith_encoded hopc hwf (by simp [hops]) (by simp [hops])

/-- Settles O4: the decoder answers what `Mnemonic.build` makes of the row it found. -/
theorem decodedInstructionReencodes : Obligations.DecodedInstructionReencodes := by
  intro opc op a b i h
  obtain ⟨m, hm, rfl, ha, hb⟩ := decodeWith_instr h
  refine ⟨(m.build_wellFormed a b).mpr ⟨ha, hb⟩, ?_⟩
  rw [encodeWith, Mnemonic.build_mnemonic, Mnemonic.build_operands, lookupWith_some hm, Mnemonic.length,
    List.take_succ_cons]

/-- Settles O1, whose nine words are closed: the decoder is run on each. -/
theorem writtenOutWordsDecode : Obligations.WrittenOutWordsDecode := by
  unfold Obligations.WrittenOutWordsDecode
  decide

/-- The opcode bytes of the default table, in the order of R85. -/
theorem mem_map_defaultOpc {op : Byte} : op ∈ Mnemonic.all.map defaultOpc ↔ ∃ m, defaultOpc m = op := by
  simp [Mnemonic.mem_all]

/-- Settles O2: the list written out is the default table's column, and a byte outside it is no mnemonic's opcode. -/
theorem unknownOpcodeBytes : Obligations.UnknownOpcodeBytes := by
  intro op a b
  have hcolumn : decode op a b = .unknownOpcode ↔ op ∉ Mnemonic.all.map defaultOpc := by
    rw [mem_map_defaultOpc, not_exists]
    exact decodeWith_unknownOpcode
  exact hcolumn

/-- R218: of the decoder's three answers, a mnemonic's opcode rules out `unknownOpcode`, and an instruction is answered
only if the checked operand bytes name registers. -/
theorem decode_invalidRegister {m : Mnemonic} {a b : Byte}
    (hbad : m.checksA = true ∧ regByteOk a = false ∨ m.checksB = true ∧ regByteOk b = false) :
    decode (defaultOpc m) a b = .invalidRegister := by
  cases hdec : decode (defaultOpc m) a b with
  | invalidRegister => rfl
  | unknownOpcode => exact absurd rfl (decodeWith_unknownOpcode.mp hdec m)
  | instr i =>
    obtain ⟨m', hm', -, ha, hb⟩ := decodeWith_instr hdec
    obtain rfl : m' = m := defaultOpc_injective (lookupWith_some hm')
    rcases hbad with ⟨hchecked, hnone⟩ | ⟨hchecked, hnone⟩
    · simp [ha hchecked] at hnone
    · simp [hb hchecked] at hnone

end Sys2Proof

namespace Sys2Proof.Machine

/-- A running machine whose bytes at `pc` decode to an instruction runs it. -/
theorem step_of_decode {s : State} {i : Instr} (hrunning : s.status = .running)
    (hdec : decode (s.memRead s.pc) (s.memRead (s.pc + 1)) (s.memRead (s.pc + 2)) = .instr i) : step s = exec i s := by
  rw [step_running hrunning, State.decodeNext_eq, hdec]

/-- Settles O5: well-formedness is the decoder's check, and the run is `step_of_decode`. -/
theorem stepRunsDecodedInstruction : Obligations.StepRunsDecodedInstruction := by
  intro s i hrunning hdec
  obtain ⟨m, -, rfl, ha, hb⟩ := decodeWith_instr hdec
  exact ⟨(m.build_wellFormed _ _).mpr ⟨ha, hb⟩, step_of_decode hrunning hdec⟩

/-- Settles O6: the bytes at `pc`, `pc +8 1` and `pc +8 2` are the opcode and two bytes that agree with the operand
bytes there are, so `decodeWith_encoded` decodes them. Addition of bytes wraps, so the wrap is no case of its own. -/
theorem encodedInstructionAtPcRuns : Obligations.EncodedInstructionAtPcRuns := by
  intro s i hrunning hwf hbytes
  have hop : s.memRead s.pc = defaultOpc i.mnemonic := by simpa using hbytes 0 (defaultOpc i.mnemonic) rfl
  have ha : ∀ x, i.operands[0]? = some x → s.memRead (s.pc + 1) = x := fun x hx => hbytes 1 x hx
  have hb : ∀ y, i.operands[1]? = some y → s.memRead (s.pc + 2) = y := fun y hy => hbytes 2 y hy
  refine step_of_decode hrunning ?_
  rw [hop]
  exact decodeWith_encoded defaultOpc_injective hwf ha hb

/-- Settles O8: the decoder rejects by `decode_invalidRegister`, so the step enters the error and runs no meaning. -/
theorem invalidRegisterPrecedesExecution : Obligations.InvalidRegisterPrecedesExecution := by
  intro s m hrunning hop hbad
  have hrejected : s.decodeNext = .invalidRegister := by
    rw [State.decodeNext_eq, hop]
    exact decode_invalidRegister
      (hbad.imp (And.imp_right regByteOk_eq_false.mpr) (And.imp_right regByteOk_eq_false.mpr))
  rw [step_running hrunning, hrejected]
  rfl

end Sys2Proof.Machine
end

section
/-!
What one instruction can do, said once (40_sequencer.md R116): the two operand checks give every instruction a next
state (R121), an ill-formed one enters the error InvalidRegister (R83, R115), and beside the entry of an error there are
nine ways in which an instruction writes the state.
-/

namespace Sys2Proof.Machine

/-- Settles O24: the meaning of every instruction with a register operand begins with the check of its operands. -/
theorem invalidRegisterRaisedByEveryForm : Obligations.InvalidRegisterRaisedByEveryForm := by
  intro i s hbad
  cases i with
  | hlt | ret => cases hbad
  | push | pop | prn | call | jmp | jeq | jne | ldi | not => exact withReg_bad hbad
  | add | sub | mul | div | mod | inc | dec | cmp | and | or | xor | shl | shr => exact withRegs_bad hbad

/-- The operand check answers a next state when what follows it does. -/
theorem withReg_next {m : Mnemonic} {a : Byte} {s : State} {k : Reg → Result} (hk : ∀ r, ∃ t, k r = .next t) :
    ∃ t, withReg m a s k = .next t := by
  unfold withReg
  split
  · exact ⟨_, rfl⟩
  · exact hk _

theorem withRegs_next {m : Mnemonic} {a b : Byte} {s : State} {k : Reg → Reg → Result}
    (hk : ∀ ra rb, ∃ t, k ra rb = .next t) : ∃ t, withRegs m a b s k = .next t :=
  withReg_next fun ra => withReg_next (hk ra)

theorem ite_next {p : Prop} [Decidable p] (x y : State) : ∃ t, (if p then .next x else .next y : Result) = .next t :=
  ⟨_, (apply_ite Host.Outcome.next p x y).symm⟩

/-- Every instruction answers a next state from every state: none is refused and none stops the machine. -/
theorem exec_next (i : Instr) (s : State) : ∃ t, exec i s = .next t := by
  cases i with
  | hlt | ret => exact ⟨_, rfl⟩
  | push | pop | prn | call | jmp | ldi | not => exact withReg_next fun _ => ⟨_, rfl⟩
  | jeq | jne => exact withReg_next fun _ => ite_next _ _
  | add | sub | mul | inc | dec | cmp | and | or | xor | shl | shr => exact withRegs_next fun _ _ => ⟨_, rfl⟩
  | div | mod => exact withRegs_next fun _ _ => ite_next _ _

/-- Settles O10: of the decoder's answers two are errors, whose entry is a next state, and the third is run. -/
theorem runningAlwaysSteps : Obligations.RunningAlwaysSteps := by
  intro s hrunning
  rw [step_running hrunning]
  split
  · exact exec_next _ s
  · exact ⟨_, rfl⟩
  · exact ⟨_, rfl⟩

/-- `Effect i s t`: the instruction `i` may make `t` of `s`. It says which updates each instruction applies, to which
register and at which address, and leaves most of the values written unsaid; `exec_effect` ties it to the meanings. -/
inductive Effect : Instr → State → State → Prop
  | raised {i : Instr} {s : State} (c : Cause) : Effect i s (s.raise c (defaultOpc i.mnemonic))
  | wrote {i : Instr} {s : State} (ra : Reg) (v : Byte) (hdest : destination i = some ra.byte)
      (hlen : i.mnemonic.length = 3) : Effect i s ((s.setReg ra v).advance 3)
  | pushed {a : Byte} {s : State} (v : Byte) : Effect (.push a) s ((s.pushByte v).advance 2)
  | popped {s : State} (ra : Reg) (v w : Byte) : Effect (.pop ra.byte) s (((s.setReg ra v).setSp w).advance 2)
  | called {a : Byte} {s : State} (v x : Byte) : Effect (.call a) s ((s.pushByte v).setPc x)
  | returned {s : State} (v x : Byte) : Effect .ret s ((s.setSp v).setPc x)
  | jumped {i : Instr} {s : State} (x : Byte) (hjump : i.mnemonic ∈ [.jmp, .jeq, .jne]) : Effect i s (s.setPc x)
  | compared {a b : Byte} {s : State} (x y : Byte) : Effect (.cmp a b) s ((s.setFlags (compareFlags x y)).advance 3)
  | emitted {a : Byte} {s : State} (v : Byte) : Effect (.prn a) s ((s.emit v).advance 2)
  | halted {s : State} : Effect .hlt s (s.halt.advance 1)

/-- The check of one operand adds an error to the effects of what follows it. -/
theorem withReg_effect {i : Instr} {a : Byte} {s t : State} {k : Reg → Result}
    (hk : ∀ r, a = r.byte → k r = .next t → Effect i s t) (h : withReg i.mnemonic a s k = .next t) : Effect i s t := by
  rcases withReg_cases h with ⟨r, ha, hr⟩ | ⟨-, rfl⟩
  · exact hk r ha hr
  · exact .raised .invalidRegister

theorem withRegs_effect {i : Instr} {a b : Byte} {s t : State} {k : Reg → Reg → Result}
    (hk : ∀ ra rb, a = ra.byte → k ra rb = .next t → Effect i s t) (h : withRegs i.mnemonic a b s k = .next t) :
    Effect i s t :=
  withReg_effect (fun ra ha => withReg_effect fun rb _ => hk ra rb ha) h

/-- Everything an instruction can do. -/
theorem exec_effect {i : Instr} {s t : State} (h : exec i s = .next t) : Effect i s t := by
  cases i with
  | hlt => cases h; exact .halted
  | ret => cases h; exact .returned _ _
  | prn => exact withReg_effect (fun _ _ hk => by cases hk; exact .emitted _) h
  | push a =>
    refine withReg_effect (fun r ha _ => ?_) h
    subst ha
    cases h.symm.trans (exec_push_byte r s)
    exact .pushed _
  | call a =>
    refine withReg_effect (fun r ha _ => ?_) h
    subst ha
    cases h.symm.trans (exec_call_byte r s)
    exact .called _ _
  | pop a => exact withReg_effect (fun r ha hk => by cases hk; subst ha; exact .popped r _ _) h
  | jmp => exact withReg_effect (fun _ _ hk => by cases hk; exact .jumped _ (by simp [Instr.mnemonic])) h
  | jeq | jne =>
    refine withReg_effect (fun r _ hk => ?_) h
    split at hk <;> cases hk <;> exact .jumped _ (by simp [Instr.mnemonic])
  | ldi | not => exact withReg_effect (fun r ha hk => by cases hk; exact .wrote r _ (congrArg some ha) rfl) h
  | add | sub | mul | inc | dec | and | or | xor | shl | shr =>
    exact withRegs_effect (fun r _ ha hk => by cases hk; exact .wrote r _ (congrArg some ha) rfl) h
  | div | mod =>
    refine withRegs_effect (fun r _ ha hk => ?_) h
    split at hk <;> cases hk
    · exact .raised .divisionByZero
    · exact .wrote r _ (congrArg some ha) rfl
  | cmp => exact withRegs_effect (fun _ _ _ hk => by cases hk; exact .compared _ _) h

/-- Settles O19: of the effects only the two with a push write memory, and a push writes the one byte at `sp -8 1`. -/
theorem onlyPushAndCallWriteMemory : Obligations.OnlyPushAndCallWriteMemory := by
  intro i s t p h hchanged
  have haddress {v : Byte} (hp : (s.pushByte v).memRead p ≠ s.memRead p) : p = s.sp - 1 := by
    by_contra hother
    exact hp ((State.pushByte_memRead s v p).trans (if_neg hother))
  cases exec_effect h with
  | pushed => exact ⟨.inl rfl, haddress hchanged⟩
  | called => exact ⟨.inr rfl, haddress hchanged⟩
  | _ => exact absurd rfl hchanged

/-- A register that reads otherwise after a register write is the written one. -/
theorem State.eq_of_setReg_changed {s : State} {ra r : Reg} {v : Byte} (h : (s.setReg ra v).reg r ≠ s.reg r) :
    r = ra := by
  by_contra hother
  exact h (by simp [hother])

/-- Settles O20: a result goes to the destination operand, and the four effects on `sp` belong to PUSH, POP, CALL and
RET. -/
theorem registersWrittenAsDeclared : Obligations.RegistersWrittenAsDeclared := by
  intro i s t r h hchanged
  cases exec_effect h with
  | wrote ra v hdest => exact .inl (State.eq_of_setReg_changed hchanged ▸ hdest)
  | popped ra v w =>
    by_cases hloaded : r = ra
    · exact .inl (hloaded ▸ rfl)
    · have hsp : ((s.setReg ra v).setSp w).reg r ≠ (s.setReg ra v).reg r := by simpa [hloaded] using hchanged
      exact .inr ⟨State.eq_of_setReg_changed hsp, .inr (.inl rfl)⟩
  | pushed => exact .inr ⟨State.eq_of_setReg_changed hchanged, .inl rfl⟩
  | called => exact .inr ⟨State.eq_of_setReg_changed hchanged, .inr (.inr (.inl rfl))⟩
  | returned => exact .inr ⟨State.eq_of_setReg_changed hchanged, .inr (.inr (.inr rfl))⟩
  | _ => exact absurd rfl hchanged

/-- Settles O21: every effect that is no control transfer and no error ends by `State.advance` with the instruction's
length. -/
theorem fallThroughByLength : Obligations.FallThroughByLength := by
  intro i s t h _ hcompleted hnoTransfer
  cases exec_effect h with
  | raised => exact absurd rfl hcompleted
  | wrote ra v _ hlen => rw [hlen]; exact State.advance_pc_toNat (s.setReg ra v) 3
  | pushed | popped | emitted => exact State.advance_pc_toNat s 2
  | compared => exact State.advance_pc_toNat s 3
  | halted => exact State.advance_pc_toNat s 1
  | called | returned => simp [Instr.mnemonic] at hnoTransfer
  | jumped _ hjump => exact absurd (List.mem_cons_of_mem _ (List.mem_cons_of_mem _ hjump)) hnoTransfer

end Sys2Proof.Machine
end

section
/-!
The output trace in execution (10_state.md R32, 41_load_output_halt.md R131). As with the flags, the key fact is that
every instruction but PRN commutes with overwriting the trace; it is stated for any change of the state that commutes
with the entry of an error.
-/

namespace Sys2Proof.Machine

/-- The operand check commutes with a change of the state when the entry of its error and what follows it do. -/
theorem withReg_commutes {g : State → State} {m : Mnemonic} {a : Byte} {s t : State} {k k' : Reg → Result}
    (hg : ∀ c op, (g s).raise c op = g (s.raise c op)) (hk : ∀ r u, k r = .next u → k' r = .next (g u))
    (h : withReg m a s k = .next t) : withReg m a (g s) k' = .next (g t) := by
  rcases withReg_cases h with ⟨r, rfl, hr⟩ | ⟨hbad, rfl⟩
  · exact (withReg_byte m r (g s) k').trans (hk r t hr)
  · rw [withReg_bad hbad, hg]

theorem withRegs_commutes {g : State → State} {m : Mnemonic} {a b : Byte} {s t : State} {k k' : Reg → Reg → Result}
    (hg : ∀ c op, (g s).raise c op = g (s.raise c op)) (hk : ∀ ra rb u, k ra rb = .next u → k' ra rb = .next (g u))
    (h : withRegs m a b s k = .next t) : withRegs m a b (g s) k' = .next (g t) :=
  withReg_commutes hg (fun ra _ => withReg_commutes hg (hk ra)) h

theorem ite_next_commutes {g : State → State} {p : Prop} [Decidable p] {x y u : State}
    (h : (if p then .next x else .next y : Result) = .next u) :
    (if p then .next (g x) else .next (g y) : Result) = .next (g u) := by
  split at h <;> cases h
  · exact if_pos ‹_›
  · exact if_neg ‹_›

/-- The state with another output trace. -/
def State.setOut (o : List Byte) (s : State) : State := { s with out := o }

/-- Every instruction but PRN does the same from any output trace and keeps the one it is given. -/
theorem exec_setOut {i : Instr} {s t : State} (o : List Byte) (hi : i.mnemonic ≠ .prn) (h : exec i s = .next t) :
    exec i (s.setOut o) = .next (t.setOut o) := by
  have hraise (c : Cause) (op : Byte) : (s.setOut o).raise c op = (s.raise c op).setOut o := rfl
  cases i with
  | hlt | ret => cases h; rfl
  | push | pop | call | jmp | ldi | not =>
    exact withReg_commutes (g := .setOut o) hraise (fun _ _ hu => by cases hu; rfl) h
  | jeq | jne =>
    refine withReg_commutes (g := .setOut o) hraise (fun _ _ hu => ?_) h
    exact ite_next_commutes (g := .setOut o) hu
  | add | sub | mul | inc | dec | cmp | and | or | xor | shl | shr =>
    exact withRegs_commutes (g := .setOut o) hraise (fun _ _ _ hu => by cases hu; rfl) h
  | div | mod =>
    refine withRegs_commutes (g := .setOut o) hraise (fun _ _ _ hu => ?_) h
    exact ite_next_commutes (g := .setOut o) hu
  | prn => exact absurd rfl hi

/-- Overwriting the trace with itself changes nothing, so `exec_setOut` says too that it is kept. -/
theorem exec_out {i : Instr} {s t : State} (hi : i.mnemonic ≠ .prn) (h : exec i s = .next t) : t.out = s.out := by
  have hself : exec i s = .next (t.setOut s.out) := exec_setOut s.out hi h
  rw [h] at hself
  injection hself with ht
  rw [ht, State.setOut]

theorem exec_prn_byte (ra : Reg) (s : State) :
    exec (.prn ra.byte) s = .next { s with out := s.out ++ [s.reg ra], pc := s.pc + 2 } :=
  withReg_byte .prn ra s _

/-- Settles O26: PRN's next state is `exec_prn_byte`, and the error is the operand check's. -/
theorem prnEmitsRegister : Obligations.PrnEmitsRegister :=
  ⟨fun ra z s => ⟨decode_of_checksB_false (m := .prn) rfl ra z, exec_prn_byte ra s⟩,
    fun _ _ ha => raises_invalidRegister_of_withReg rfl ha⟩

/-- Settles O22: nothing is appended but by a PRN of a register, which appends that register's byte. -/
theorem outputOnlyGrows : Obligations.OutputOnlyGrows := by
  intro i s t h
  by_cases hi : i.mnemonic = .prn
  · cases i with
    | prn a =>
      rcases withReg_cases h with ⟨ra, rfl, hk⟩ | ⟨hbad, rfl⟩
      · cases hk
        exact ⟨[s.reg ra], rfl, Nat.le_refl 1, fun _ => rfl, fun o => exec_prn_byte ra (s.setOut o)⟩
      · refine ⟨[], by simp, Nat.zero_le 1, fun hne => absurd rfl hne, fun o => ?_⟩
        rw [List.append_nil]
        exact withReg_bad hbad
    | _ => cases hi
  · refine ⟨[], by simp [exec_out hi h], Nat.zero_le 1, fun hne => absurd rfl hne, fun o => ?_⟩
    rw [List.append_nil]
    exact exec_setOut o hi h

end Sys2Proof.Machine
end

section
/-!
What every step keeps, and how the machine ends (10_state.md R27, R28, R31, 40_sequencer.md R119, R120). The flags and
memory are followed through `Effect`, the status and the fault record through `step_ends`.
-/

namespace Sys2Proof.Machine

theorem step_of_halted {s : State} (h : s.status = .halted) : step s = .fault .runHalted := by simp [step, h]

theorem step_of_errored {s : State} (h : s.status = .errored) : step s = .fault .runErrored := by simp [step, h]

/-- Settles O9: the step looks at the status first. -/
theorem noStepAfterTheEnd : Obligations.NoStepAfterTheEnd := fun _ => ⟨step_of_halted, step_of_errored⟩

/-- HLT has no operand bytes, so any two may follow its opcode (R81, R132). -/
theorem decode_hlt (y z : Byte) : decode 0b00000001 y z = .instr .hlt :=
  decode_defaultOpc (m := .hlt) (fun hchecked => absurd hchecked (by decide))
    (fun hchecked => absurd hchecked (by decide))

/-- Settles O27: HLT's next state sets the status and `pc` alone, and `step_of_halted` says that no step follows. -/
theorem hltHalts : Obligations.HltHalts := fun y z s =>
  ⟨decode_hlt y z, s.halt.advance 1, rfl, rfl, State.advance_pc_toNat s 1, fun _ => rfl, fun _ => rfl, rfl, rfl, rfl,
    step_of_halted rfl⟩

/-- Settles O12: `step_ends` leaves one way into `Errored`, the entry of an error that names `pc` and the byte there. -/
theorem errorsArePrecise : Obligations.ErrorsArePrecise := by
  intro s t h herrored
  obtain ⟨-, ⟨-, rfl⟩ | ⟨-, hrunning, -⟩ | ⟨-, c, hc, ht⟩⟩ := step_ends h
  · cases herrored
  · rw [hrunning] at herrored; cases herrored
  · exact ⟨c, hc, ht⟩

/-- The flags are kept, or they are CMP's. -/
theorem exec_fl_kept_or_exactlyOne {i : Instr} {s t : State} (h : exec i s = .next t) :
    t.fl = s.fl ∨ t.fl.exactlyOne := by
  cases exec_effect h with
  | compared x y => exact .inr (compareFlags_exactlyOne x y)
  | _ => exact .inl rfl

theorem step_fl_kept_or_exactlyOne {s t : State} (h : step s = .next t) : t.fl = s.fl ∨ t.fl.exactlyOne := by
  obtain ⟨-, ⟨i, -, hexec⟩ | ⟨-, rfl⟩ | ⟨-, rfl⟩⟩ := step_cases h
  · exact exec_fl_kept_or_exactlyOne hexec
  · exact .inl rfl
  · exact .inl rfl

/-- Settles O18: flags that are kept are exclusive as before, and CMP's are always. -/
theorem exactlyOneFlagPersists : Obligations.ExactlyOneFlagPersists := by
  refine ⟨fun s t hone h => ?_, rfl⟩
  rcases step_fl_kept_or_exactlyOne h with hkept | hcmp
  · exact hkept ▸ hone
  · exact hcmp

/-- Only a push writes memory, and a write keeps the canonical form. -/
theorem exec_mem_wf {i : Instr} {s t : State} (hwf : s.mem.wf = true) (h : exec i s = .next t) : t.mem.wf = true := by
  cases exec_effect h with
  | pushed v | called v => exact State.memWrite_wf (s := s.setSp (s.sp - 1)) hwf
  | _ => exact hwf

theorem step_mem_wf {s t : State} (hwf : s.mem.wf = true) (h : step s = .next t) : t.mem.wf = true := by
  obtain ⟨-, ⟨i, -, hexec⟩ | ⟨-, rfl⟩ | ⟨-, rfl⟩⟩ := step_cases h
  · exact exec_mem_wf hwf hexec
  · exact hwf
  · exact hwf

/-- The fault record goes with the status (R31): either the state is not `Errored` and holds none, or it is, and holds a
record of its own `pc` and the byte there, with a cause that a program can raise. -/
def State.FaultFits (s : State) : Prop :=
  (s.status ≠ .errored ∧ s.fault = none) ∨
    (s.status = .errored ∧ ∃ c : Cause, c.reachable ∧ s.fault = some ⟨c, s.pc, s.memRead s.pc⟩)

theorem State.inv_iff {s : State} : s.Inv ↔ s.mem.wf = true ∧ s.fl.atMostOne ∧ s.FaultFits := by
  constructor
  · rintro ⟨hmem, hflags, hiff, hrecord⟩
    refine ⟨hmem, hflags, ?_⟩
    cases hfault : s.fault with
    | none => exact .inl ⟨by simpa [hfault] using hiff, hfault⟩
    | some r =>
      obtain ⟨hpc, hop, hc⟩ := hrecord r hfault
      exact .inr ⟨hiff.mp (by simp [hfault]), r.cause, hc, by rw [hfault, ← hop, ← hpc]⟩
  · rintro ⟨hmem, hflags, ⟨hstatus, hfault⟩ | ⟨hstatus, c, hc, hfault⟩⟩
    · exact ⟨hmem, hflags, by simp [hfault, hstatus], by simp [hfault]⟩
    · refine ⟨hmem, hflags, by simp [hfault, hstatus], fun r hr => ?_⟩
      obtain rfl : _ = r := Option.some.inj (hfault.symm.trans hr)
      exact ⟨rfl, rfl, hc⟩

/-- A step starts with no record, and leaves one just when it enters an error. -/
theorem step_faultFits {s t : State} (hfits : s.FaultFits) (h : step s = .next t) : t.FaultFits := by
  obtain ⟨hrunning, hends⟩ := step_ends h
  have hnone : s.fault = none := by
    rcases hfits with ⟨-, hnone⟩ | ⟨herrored, -⟩
    · exact hnone
    · rw [hrunning] at herrored; cases herrored
  rcases hends with ⟨-, rfl⟩ | ⟨-, hstatus, hfault⟩ | ⟨-, c, hc, rfl⟩
  · exact .inl ⟨by simp, hnone⟩
  · exact .inl ⟨by simp [hstatus], hfault.trans hnone⟩
  · exact .inr ⟨rfl, c, hc, rfl⟩

/-- Settles O13, clause by clause: `step_mem_wf`, `step_fl_kept_or_exactlyOne` and `step_faultFits`. -/
theorem stepKeepsInv : Obligations.StepKeepsInv := by
  intro s t hinv h
  obtain ⟨hmem, hflags, hfits⟩ := State.inv_iff.mp hinv
  refine State.inv_iff.mpr ⟨step_mem_wf hmem h, ?_, step_faultFits hfits h⟩
  rcases step_fl_kept_or_exactlyOne h with hkept | hone
  · exact hkept ▸ hflags
  · exact hone.1

end Sys2Proof.Machine
end

section
/-!
What passes between core and host (70_reset_and_hazards.md R240, R241, 60_exceptions.md R210, R224): the state an image
starts in, and the codes a run delivers.
-/

namespace Sys2Proof.Machine

/-- The reset state has the invariant with any memory in canonical form. -/
theorem State.reset_inv_of_mem_wf {m : Memory} (hm : m.wf = true) : ({ State.reset with mem := m } : State).Inv :=
  State.inv_iff.mpr ⟨hm, by simp [State.reset, Flags.atMostOne], .inl ⟨by simp [State.reset], rfl⟩⟩

/-- Settles O14. -/
theorem resetHasInv : Obligations.ResetHasInv := State.reset_inv_of_mem_wf State.reset_mem_wf

/-- Settles O15: a program that is loaded fits, and the memory of an image that fits is in canonical form. -/
theorem loadedImageHasInv : Obligations.LoadedImageHasInv := by
  refine ⟨fun program s hload => ?_, fun program hlong => State.load_of_lt hlong⟩
  rcases Nat.lt_or_ge Config.memSize program.length with hlong | hfits
  · rw [State.load_of_lt hlong] at hload
    cases hload
  · rw [State.load_of_le hfits] at hload
    cases hload
    exact State.reset_inv_of_mem_wf (Memory.ofBytes_wf hfits)

theorem State.reset_reg (r : Reg) : State.reset.reg r = if r = 7 then 0xF4 else 0 := by
  revert r
  decide

/-- R241: the image's bytes from address 0 on, then 0. -/
theorem State.memRead_loaded (program : List Byte) (p : Byte) :
    ({ State.reset with mem := Memory.ofBytes Config.loadBase program } : State).memRead p =
      (program[p.toNat]?).getD 0 := by
  simp [State.memRead, Memory.read_ofBytes, Config.loadBase, Config.memFill]

/-- Settles O16: the image's state is the reset state with only memory changed. -/
theorem resetEstablishesState : Obligations.ResetEstablishesState :=
  ⟨fun program hfits =>
      ⟨_, State.load_of_le hfits, State.reset_reg, rfl, rfl, State.memRead_loaded program, rfl, rfl, rfl⟩,
    rfl⟩

theorem Status.code_injective : Function.Injective Status.code := by
  intro x y
  cases x <;> cases y <;> decide

theorem Cause.code_injective : Function.Injective Cause.code := by
  intro x y
  cases x <;> cases y <;> decide

/-- The code 0 stands for no record alone (R210). -/
theorem faultCode_ne_zero {f : Option FaultRecord} : faultCode f ≠ 0 ↔ f.isSome = true := by
  cases f <;> simp

/-- Settles O23: the codes are injective, and in a state with the invariant a record is present exactly in `Errored`. -/
theorem hostSeesCauseExactlyWhenErrored : Obligations.HostSeesCauseExactlyWhenErrored := by
  intro s
  refine ⟨_, _, _, s.delivers_eq, Status.code_injective.eq_iff (b := .running),
    Status.code_injective.eq_iff (b := .halted), Status.code_injective.eq_iff (b := .errored), ?absent, ?present, ?inv⟩
  case absent => intro hnone; simp [hnone]
  case present =>
    intro r hr
    rw [hr]
    exact ⟨rfl, Cause.code_injective.eq_iff (b := .unknownOpcode),
      Cause.code_injective.eq_iff (b := .unsupportedALUOperation), Cause.code_injective.eq_iff (b := .divisionByZero),
      Cause.code_injective.eq_iff (b := .memoryOutOfRange), Cause.code_injective.eq_iff (b := .invalidRegister)⟩
  case inv =>
    intro hinv
    have herrored : s.fault.isSome = true ↔ s.status.code = 2 :=
      hinv.fault_iff_errored.trans (Status.code_injective.eq_iff (b := .errored)).symm
    exact ⟨faultCode_ne_zero.trans herrored, by rw [Option.isSome_map, herrored]⟩

end Sys2Proof.Machine
end

section
/-!
DIV, MOD, NOT and CMP (44_alu_arith.md R175, R176, 45_alu_logic_shift_cmp.md R193, R197), from the shared rules. DIV and
MOD have one shape, `aluDivide`, which chooses on the divisor's value between the rule of the ALU and an error.
-/

namespace Sys2Proof.Machine

/-- A quotient of a byte is a byte, so DIV's narrowing loses nothing. -/
theorem aluDiv_toNat (x y : Byte) : (aluDiv x y).toNat = x.toNat / y.toNat := by
  have hfits : x.toNat / y.toNat < 2 ^ 8 := (Nat.div_le_self _ _).trans_lt x.isLt
  rw [aluDiv, BitVec.toNat_ofNat, Nat.mod_eq_of_lt hfits]

/-- A remainder of a byte is a byte too. -/
theorem aluMod_toNat (x y : Byte) : (aluMod x y).toNat = x.toNat % y.toNat := by
  have hfits : x.toNat % y.toNat < 2 ^ 8 := (Nat.mod_le _ _).trans_lt x.isLt
  rw [aluMod, BitVec.toNat_ofNat, Nat.mod_eq_of_lt hfits]

theorem aluNot_toNat (x : Byte) : (aluNot x).toNat = 255 - x.toNat := by
  have hfits : 255 - x.toNat < 2 ^ 8 := Nat.lt_succ_of_le (Nat.sub_le 255 _)
  rw [aluNot, BitVec.toNat_ofNat, Nat.mod_eq_of_lt hfits]

/-- R175, R176: with a divisor other than 0 the instruction completes with its function of the two values. -/
theorem completesWith_of_aluDivide {i : Instr} {m : Mnemonic} {f : Byte → Byte → Byte} {ra rb : Reg} {s : State}
    {P : Byte → Prop} (h : exec i s = aluDivide m f ra.byte rb.byte s) (hdivisor : s.reg rb ≠ 0)
    (hf : P (f (s.reg ra) (s.reg rb))) : CompletesWith i s ra 3 P := by
  rw [aluDivide_byte, if_neg hdivisor] at h
  exact completesWith_setReg_advance h hf

/-- R212: with the divisor 0 it raises DivisionByZero. -/
theorem raises_divisionByZero {i : Instr} {f : Byte → Byte → Byte} {ra rb : Reg} {s : State}
    (h : exec i s = aluDivide i.mnemonic f ra.byte rb.byte s) (hzero : s.reg rb = 0) : Raises i s .divisionByZero := by
  rw [aluDivide_byte, if_pos hzero] at h
  exact h

/-- Settles O35: the two are `aluDivide` of `aluDiv` and `aluMod`, whose values as numbers are `aluDiv_toNat` and
`aluMod_toNat`; the check of both operands stands before that of the divisor. -/
theorem divModOrDivisionByZero : Obligations.DivModOrDivisionByZero := by
  refine ⟨fun ra rb s => ⟨decode_registers .div ra rb, decode_registers .mod ra rb,
    fun hdivisor => ⟨?quotient, ?remainder⟩,
    fun hzero => ⟨raises_divisionByZero rfl hzero, raises_divisionByZero rfl hzero⟩⟩, fun a b s hab => ?invalid⟩
  case quotient => exact completesWith_of_aluDivide rfl hdivisor (aluDiv_toNat _ _)
  case remainder => exact completesWith_of_aluDivide rfl hdivisor (aluMod_toNat _ _)
  case invalid =>
    exact ⟨raises_invalidRegister_of_withRegs rfl hab, raises_invalidRegister_of_withRegs rfl hab⟩

theorem exec_not_byte (ra : Reg) (z : Byte) (s : State) :
    exec (.not ra.byte z) s = .next ((s.setReg ra (aluNot (s.reg ra))).advance 3) :=
  withReg_byte .not ra s _

/-- Settles O38: of NOT's operand bytes only the first is checked, by the decoder and by the meaning, and the effect is
`exec_not_byte` for every third byte. -/
theorem notComplementsIgnoringThirdByte : Obligations.NotComplementsIgnoringThirdByte :=
  ⟨fun ra z s => ⟨decode_of_checksB_false (m := .not) rfl ra z,
      completesWith_setReg_advance (exec_not_byte ra z s) (aluNot_toNat _)⟩,
    fun _ _ _ ha => raises_invalidRegister_of_withReg rfl ha⟩

/-- Settles O40: CMP's next state is `exec_cmp_byte`, in which the three flags are the three comparisons. -/
theorem cmpSetsExactlyOneFlag : Obligations.CmpSetsExactlyOneFlag := by
  refine ⟨fun ra rb s => ⟨decode_registers .cmp ra rb, _, exec_cmp_byte ra rb s, compareFlags_exactlyOne _ _, ?_⟩,
    fun _ _ _ hab => raises_invalidRegister_of_withRegs rfl hab⟩
  exact ⟨decide_eq_true_iff, decide_eq_true_iff, decide_eq_true_iff, rfl, fun _ => rfl, fun _ => rfl, rfl, rfl, rfl⟩

end Sys2Proof.Machine
end

section
/-!
Two instructions together (42_stack.md, 43_control_transfer.md, 20_memory.md R64, R66). The first leaves a state that
one of the rules above gives exactly; what the second reads of it is read there.
-/

namespace Sys2Proof.Machine

/-- Settles O42: RET reads `sp` and the byte there alone, and those are what CALL left: the return address, and `sp`
less 1. -/
theorem retReturnsAfterCall : Obligations.RetReturnsAfterCall := by
  intro ra s t u hcall hsp hslot
  cases hcall.symm.trans (exec_call_byte ra s)
  refine ⟨_, rfl, ?target, ?restored⟩
  case target => exact hslot.trans (by simp)
  case restored => simp [hsp]

/-- Settles O43: of CMP's flags the branches read Equal, which is the equality of the two bytes. -/
theorem branchesFollowComparedValues : Obligations.BranchesFollowComparedValues := by
  intro ra rb rc s t u hcmp hfl
  cases hcmp.symm.trans (exec_cmp_byte ra rb s)
  have hequal : u.fl.E = true ↔ s.reg ra = s.reg rb := by
    rw [hfl, ← BitVec.toNat_inj]
    exact decide_eq_true_iff
  rw [exec_jeq_byte, exec_jne_byte]
  simp only [hequal]
  exact ⟨rfl, rfl⟩

theorem bytesAtPc_pair {x y : Byte} {s : State} :
    BytesAtPc [x, y] s ↔ s.memRead s.pc = x ∧ s.memRead (s.pc + 1) = y := by
  constructor
  · exact fun h => ⟨by simpa using h 0 x rfl, h 1 y rfl⟩
  · rintro ⟨hx, hy⟩ k b hb
    match k with
    | 0 => simpa [hx] using hb
    | 1 => exact hy.trans (Option.some.inj hb)

/-- PUSH at `pc` is what the step executes. -/
theorem step_push {s : State} {ra : Reg} (hrunning : s.status = .running) (hbytes : BytesAtPc [0x45, ra.byte] s) :
    step s = .next ((s.pushByte (if ra = 7 then s.sp - 1 else s.reg ra)).advance 2) :=
  (encodedInstructionAtPcRuns s (.push ra.byte) hrunning (regByteOk_byte ra) hbytes).trans (exec_push_byte ra s)

theorem step_pop {s : State} {ra : Reg} (hrunning : s.status = .running) (hbytes : BytesAtPc [0x46, ra.byte] s) :
    step s = .next (((s.setReg ra (s.memRead s.sp)).setSp ((s.setReg ra (s.memRead s.sp)).sp + 1)).advance 2) :=
  (encodedInstructionAtPcRuns s (.pop ra.byte) hrunning (regByteOk_byte ra) hbytes).trans (exec_pop_byte ra s)

/-- A byte of memory that a push does not hit reads as before it. -/
theorem State.pushByte_memRead_of_ne {s : State} {v p : Byte} (h : s.sp - 1 ≠ p) :
    (s.pushByte v).memRead p = s.memRead p :=
  (State.pushByte_memRead s v p).trans (if_neg h.symm)

/-- The two bytes after a PUSH stand at `pc` after it, when the slot is neither of them. -/
theorem bytesAtPc_pushByte_advance {s : State} {v x y : Byte} (hslot2 : s.sp - 1 ≠ s.pc + 2)
    (hslot3 : s.sp - 1 ≠ s.pc + 3) (hx : s.memRead (s.pc + 2) = x) (hy : s.memRead (s.pc + 3) = y) :
    BytesAtPc [x, y] ((s.pushByte v).advance 2) := by
  have haddr : ((s.pushByte v).advance 2).pc + 1 = s.pc + 3 := BitVec.add_assoc _ _ _
  rw [bytesAtPc_pair, haddr]
  exact ⟨(State.pushByte_memRead_of_ne hslot2).trans hx, (State.pushByte_memRead_of_ne hslot3).trans hy⟩

/-- Settles O41: after the step of `step_push` the bytes of the POP still stand at `pc`, and what the step of `step_pop`
then loads from the slot is what was pushed. -/
theorem pushThenPopRoundTrips : Obligations.PushThenPopRoundTrips := by
  intro s ra rb hrunning hra hrb hbytes hslot2 hslot3
  have hpush : BytesAtPc [0x45, ra.byte] s :=
    bytesAtPc_pair.mpr ⟨by simpa using hbytes 0 0x45 rfl, hbytes 1 ra.byte rfl⟩
  have hpop : BytesAtPc [0x46, rb.byte] ((s.pushByte (if ra = 7 then s.sp - 1 else s.reg ra)).advance 2) :=
    bytesAtPc_pushByte_advance hslot2 hslot3 (hbytes 2 0x46 rfl) (hbytes 3 rb.byte rfl)
  refine ⟨_, _, step_push hrunning hpush, step_pop hrunning hpop, ?copied, ?sp, ?pc, ?others, ?memory⟩
  case copied => simp [hra, hrb]
  case sp => simp [State.setReg_sp, hrb]
  case pc => exact BitVec.add_assoc s.pc 2 2
  case others =>
    intro q hq
    by_cases hsp : q = 7
    · simp [hsp, State.sp_eq, hrb.symm]
    · simp [hsp, hq]
  case memory => exact fun p hp => State.pushByte_memRead_of_ne hp.symm

/-- R64: with the slot at the address after PUSH's two bytes, the pushed byte is the byte at `pc` afterwards. -/
theorem State.memRead_pc_of_pushed {s : State} {v : Byte} (hslot : s.sp - 1 = s.pc + 2) :
    ((s.pushByte v).advance 2).memRead ((s.pushByte v).advance 2).pc = v :=
  (State.pushByte_memRead s v (s.pc + 2)).trans (if_pos hslot.symm)

/-- R66: the fetch there decodes the pushed byte and the two bytes after it, which the push does not hit. -/
theorem State.decodeNext_pushed {s : State} {v : Byte} (hslot : s.sp - 1 = s.pc + 2) :
    ((s.pushByte v).advance 2).decodeNext = decode v (s.memRead (s.pc + 3)) (s.memRead (s.pc + 4)) := by
  have haddr1 : ((s.pushByte v).advance 2).pc + 1 = s.pc + 3 := BitVec.add_assoc _ _ _
  have haddr2 : ((s.pushByte v).advance 2).pc + 2 = s.pc + 4 := BitVec.add_assoc _ _ _
  have hslot3 : s.sp - 1 ≠ s.pc + 3 := by rw [hslot]; bv_omega
  have hslot4 : s.sp - 1 ≠ s.pc + 4 := by rw [hslot]; bv_omega
  rw [State.decodeNext_eq, State.memRead_pc_of_pushed hslot, haddr1, haddr2, State.advance_memRead,
    State.advance_memRead, State.pushByte_memRead_of_ne hslot3, State.pushByte_memRead_of_ne hslot4]

/-- Settles O44: the slot is the new `pc`, so the step after PUSH's goes by the decoder's answer for the pushed byte. -/
theorem pushedByteIsNextOpcode : Obligations.PushedByteIsNextOpcode := by
  intro s ra v hrunning hbytes hslot hv
  have hnext : ((s.pushByte v).advance 2).status = .running := hrunning
  refine ⟨_, hv ▸ step_push hrunning hbytes, rfl, State.memRead_pc_of_pushed hslot, ?_⟩
  rw [step_running hnext, State.decodeNext_pushed hslot, State.memRead_pc_of_pushed hslot]
  refine ⟨fun i hdec => ?runs, fun hdec => ?unknown, fun hdec => ?invalid⟩
  case runs => rw [hdec]
  case unknown => rw [hdec]; rfl
  case invalid => rw [hdec]; rfl

end Sys2Proof.Machine
end
